-- ==== Sys2Proof/Word.lean ====
section
/-! DEFINITION. The word types of the machine: bytes, 16-bit words, register indices, 12-bit memory addresses. -/

namespace Sys2Proof

/-- The `u8` of the spec: a register, a timer, a memory cell (R5, REG_W). -/
abbrev Byte := BitVec 8

/-- The `u16` of the spec: an instruction word, `I`, `pc`, a stack slot (R5, I_W, PC_W). -/
abbrev Word := BitVec 16

/-- A register index `X` or `Y`, a key index, or the nibble `N` (R71). -/
abbrev Nibble := BitVec 4

/-- An index into `MEM`, 0 to 4095 (R50), and the immediate `NNN` (R71). -/
abbrev Addr := BitVec 12

theorem nibble_lt (n : Nibble) : n.toNat < 16 := n.isLt

theorem addr_lt (a : Addr) : a.toNat < 4096 := a.isLt

theorem byte_lt (b : Byte) : b.toNat < 256 := b.isLt

theorem word_lt (w : Word) : w.toNat < 65536 := w.isLt

end Sys2Proof
end

