-- ==== Sys2Proof/Config.lean ====
section
/-! DEFINITION. What is fixed for the machine: the parameters of R5 and the one free value, the random byte of CXKK.
The open parameters of R6 that the spec gives a value for stand in Machine/Params.lean. -/

namespace Sys2Proof.Config

/-- MEM_SIZE of R5. -/
abbrev memSize : Nat := 4096

/-- PROG_BASE of R5: the load address and the reset value of `pc`. -/
abbrev progBase : Nat := 0x200

/-- PROG_MAX of R5: the largest program in bytes. -/
abbrev progMax : Nat := 3584

/-- The highest `pc` a fetch can read both bytes at (R85). -/
abbrev lastFetch : Nat := 0xFFE

/-- The free random byte of the `n`-th execution of CXKK (R122, decision D9): no value of it can be proved.
DESIGN CHOICE, safe: notes/assumptions/6.md. -/
opaque rand : Nat → Byte

end Sys2Proof.Config
end

