-- ==== Sys2Proof/Machine/State.lean ====
section
/-! DEFINITION. The state of the CORE (R20 to R36), the reasons a step or a host transaction can stop, and reset. -/

namespace Sys2Proof.Machine

/-- The four errors the latch `ERR` can hold besides None (R34, R200, R201). Raising one is a next state, never a
`Fault`: see notes/assumptions/10.md. -/
inductive FatalError where
  /-- Fetch with `pc` above 0xFFE (R205). -/
  | outOfBounds
  /-- The fetched word is none of the 34 instructions (R206). -/
  | invalidOpcode
  /-- 2NNN with `SP = 15` (R207). -/
  | stackOverflow
  /-- 00EE with `SP = 0` (R208). -/
  | stackUnderflow
  deriving DecidableEq, Repr

/-- Why the machine cannot go on from a call. No step of the machine ends in a fault: the run-time errors of R200 are
next states with `ERR` set. -/
inductive Fault where
  /-- Raised by `loadProgram` alone, for a program of more than 3584 bytes (R209, R243). Safe: the spec's own answer,
  recoverable, nothing is written and the host goes on from the state it had. -/
  | programTooLarge (length : Nat)
  deriving DecidableEq, Repr

/-- Why the model gives a call no meaning. No step of the machine and no instruction is refused. -/
inductive Refusal where
  /-- An instruction without a meaning, by its mnemonic; raised by an arm of `exec` only, and no arm raises it.
  Safe: the model stops where the hardware goes on. -/
  | notModelled (mnemonic : String)
  /-- Raised by the transaction loadProgram outside the launch window or after a successful load: the spec calls it
  no transaction of the machine (R243, R245, decision D17, U15). Safe. -/
  | loadOutsideLaunchWindow
  /-- Raised by the transaction setKey with an index above 15: the spec calls it no transaction of the machine
  (R223, R229, decision D22, U16). Safe. -/
  | keyIndexOutOfRange (index : Nat)
  deriving DecidableEq, Repr

/-- `MEM` (R50) as the list of the cells that differ from their reset contents, by rising address. -/
abbrev Memory := List Host.Cell

/-- The grid `FB[y][x]` (R30): 32 rows of 64 pixels, true for a pixel of value 1. -/
abbrev Framebuffer := Vector (Vector Bool 64) 32

/-- All the state the spec gives the machine (R35), and the model's own counter `draws`. -/
structure State where
  /-- `V[0]` to `V[15]` (R20). -/
  v : Vector Byte 16
  /-- The index register `I` (R23). -/
  i : Word
  /-- The program counter (R24). -/
  pc : Word
  /-- `STACK[0]` to `STACK[15]` (R26). -/
  stack : Vector Word 16
  /-- The stack pointer (R26). -/
  sp : Nibble
  /-- The delay timer (R28). -/
  dt : Byte
  /-- The sound timer (R28). -/
  st : Byte
  /-- `KEY[0]` to `KEY[15]`, true for pressed (R29). -/
  key : Vector Bool 16
  /-- The framebuffer (R30). -/
  fb : Framebuffer
  /-- The redraw flag (R31). -/
  redraw : Bool
  /-- `WAIT`: in the state AwaitingKey (R32). -/
  wait : Bool
  /-- `WAITX`: the register the key wait will write (R32). -/
  waitX : Nibble
  /-- The error latch `ERR` (R34). -/
  err : Option FatalError
  /-- `MEM` (R50). -/
  mem : Memory
  /-- The model's own: how many random bytes CXKK has drawn. It only numbers the free values of `Config.rand`. -/
  draws : Nat
  deriving DecidableEq, Repr

/-- The machine right after reset: the table of R36. `mem := []` says that every cell holds its reset contents, the
font and zeros (`Memory.initial`). `draws` is a DESIGN CHOICE, safe: notes/assumptions/6.md. -/
def State.reset : State where
  v := Vector.replicate 16 0
  i := 0
  pc := 0x200
  stack := Vector.replicate 16 0
  sp := 0
  dt := 0
  st := 0
  key := Vector.replicate 16 false
  fb := Vector.replicate 32 (Vector.replicate 64 false)
  redraw := false
  wait := false
  waitX := 0
  err := none
  mem := []
  draws := 0

end Sys2Proof.Machine
end

