-- ==== Sys2Proof/Machine/Params.lean ====
section
/-! DEFINITION. The open parameters of R6. `Params` is what the model takes as an argument (`stepWith`, `cycleWith`,
`transactWith`, `State.resetWith`); `Params.spec` has each at the value the spec uses, which is what `step`, `exec`,
`decode` and `State.reset` run with, and which stands in one definition of its own per parameter. The random byte is
the free value `Config.rand`, and an argument of `cycleWith`. -/

namespace Sys2Proof.Machine

/-- FONT: the 80 font bytes of R33, glyph `d` at index `5 * d`, top row first.
PRESUMED, unsafe: notes/assumptions/1.md. -/
def font : List Byte :=
  [0xF0, 0x90, 0x90, 0x90, 0xF0,   0x20, 0x60, 0x20, 0x20, 0x70,
   0xF0, 0x10, 0xF0, 0x80, 0xF0,   0xF0, 0x10, 0xF0, 0x10, 0xF0] ++
  [0x90, 0x90, 0xF0, 0x10, 0x10,   0xF0, 0x80, 0xF0, 0x10, 0xF0,
   0xF0, 0x80, 0xF0, 0x90, 0xF0,   0xF0, 0x10, 0x20, 0x40, 0x40] ++
  [0xF0, 0x90, 0xF0, 0x90, 0xF0,   0xF0, 0x90, 0xF0, 0x10, 0xF0,
   0xF0, 0x90, 0xF0, 0x90, 0x90,   0xE0, 0x90, 0xE0, 0x90, 0xE0] ++
  [0xF0, 0x80, 0x80, 0x80, 0xF0,   0xE0, 0x90, 0x90, 0x90, 0xE0,
   0xF0, 0x80, 0xF0, 0x80, 0xF0,   0xF0, 0x80, 0xF0, 0x80, 0x80]

/-- `AnyKey()`: some key is pressed (R185). -/
def anyKey (key : Vector Bool 16) : Bool := key.toList.any id

/-- The key FX0A takes under a selection, none when no key is pressed: a selection is asked only for a non-empty set of
pressed keys (R6, R185). -/
def keySelWith (sel : Vector Bool 16 → Nibble) (key : Vector Bool 16) : Option Nibble :=
  if anyKey key then some (sel key) else none

/-- KEYSEL (R6): the lowest pressed key. DESIGN CHOICE of the spec (D7), unsafe: notes/assumptions/3.md. -/
def lowestKey (key : Vector Bool 16) : Nibble := BitVec.ofNat 4 (key.toList.findIdx id)

/-- AnyKey and KEYSEL together, with the spec's selection. -/
def keySel (key : Vector Bool 16) : Option Nibble := keySelWith lowestKey key

/-- SUB_EQ_VF (R6, conflict C3): what VF takes after 8XY5 and 8XY7 on equal operands.
DEDUCED, unsafe: notes/assumptions/4.md. -/
def subEqVf : Byte := 0

/-- STRICT_DECODE (R6, R74, decision D3): the families 0, 5 and 9 match every fixed digit.
DEDUCED, safe: notes/assumptions/5.md. -/
def strictDecode : Bool := true

/-- The error codes of R201. DESIGN CHOICE of the spec (D6), safe: notes/assumptions/14.md. -/
def FatalError.code : FatalError → Nat
  | .outOfBounds => 1
  | .invalidOpcode => 2
  | .stackOverflow => 3
  | .stackUnderflow => 4

/-- The code of the loader's answer ProgramTooLarge (R201); it is never latched. -/
def programTooLargeCode : Nat := 5

/-- The open parameters of R6, but for the random byte: each any value of its type. -/
structure Params where
  /-- FONT: 80 bytes. -/
  font : List Byte
  /-- KEYSEL: a pressed key for every non-empty set of pressed keys. -/
  keySel : Vector Bool 16 → Nibble
  /-- SUB_EQ_VF: what VF takes after 8XY5 and 8XY7 on equal operands. -/
  subEqVf : Byte
  /-- STRICT_DECODE: the families 0, 5 and 9 match every fixed digit. -/
  strictDecode : Bool
  /-- The numbers of the fatal errors. -/
  code : FatalError → Nat
  /-- The number of ProgramTooLarge. -/
  tooLargeCode : Nat

/-- The parameters at the values of R6's third column. -/
def Params.spec : Params where
  font := Machine.font
  keySel := lowestKey
  subEqVf := Machine.subEqVf
  strictDecode := Machine.strictDecode
  code := FatalError.code
  tooLargeCode := programTooLargeCode

/-- What R6 asks of the parameters by their types: 80 font bytes, a selection that takes a pressed key, and a flag that
is 0 or 1 (R139). -/
structure Params.Lawful (p : Params) : Prop where
  font_length : p.font.length = 80
  keySel_pressed : ∀ key, anyKey key = true → key[(p.keySel key).toNat]'(nibble_lt _) = true
  subEqVf_flag : p.subEqVf = 0 ∨ p.subEqVf = 1

end Sys2Proof.Machine
end

