-- ==== Sys2Proof/Syntax.lean ====
section
/-! DEFINITION. The instructions, one constructor per row of spec/opcode_table.json, and the opcode map of R75. -/

namespace Sys2Proof

/-- The 34 instructions in the order of R75. `x` and `y` are register indices, `kk` is the 8-bit, `nnn` the 12-bit and
`n` the 4-bit immediate of R71. -/
inductive Instr where
  /-- 00E0, CLS (R164). -/
  | cls
  /-- 00EE, RET (R100). -/
  | ret
  /-- 1NNN, JP nnn (R101). -/
  | jp (nnn : Addr)
  /-- 2NNN, CALL nnn (R102). -/
  | call (nnn : Addr)
  /-- 3XKK, SE Vx, kk (R110). -/
  | seImm (x : Nibble) (kk : Byte)
  /-- 4XKK, SNE Vx, kk (R111). -/
  | sneImm (x : Nibble) (kk : Byte)
  /-- 5XY0, SE Vx, Vy (R112). -/
  | seReg (x y : Nibble)
  /-- 6XKK, LD Vx, kk (R120). -/
  | ldImm (x : Nibble) (kk : Byte)
  /-- 7XKK, ADD Vx, kk (R121). -/
  | addImm (x : Nibble) (kk : Byte)
  /-- 8XY0, LD Vx, Vy (R130). -/
  | ldReg (x y : Nibble)
  /-- 8XY1, OR Vx, Vy (R131). -/
  | orReg (x y : Nibble)
  /-- 8XY2, AND Vx, Vy (R132). -/
  | andReg (x y : Nibble)
  /-- 8XY3, XOR Vx, Vy (R133). -/
  | xorReg (x y : Nibble)
  /-- 8XY4, ADD Vx, Vy (R134). -/
  | addReg (x y : Nibble)
  /-- 8XY5, SUB Vx, Vy (R135). -/
  | sub (x y : Nibble)
  /-- 8XY6, SHR Vx; `y` is encoded and ignored (R76, R136). -/
  | shr (x y : Nibble)
  /-- 8XY7, SUBN Vx, Vy (R137). -/
  | subn (x y : Nibble)
  /-- 8XYE, SHL Vx; `y` is encoded and ignored (R76, R138). -/
  | shl (x y : Nibble)
  /-- 9XY0, SNE Vx, Vy (R113). -/
  | sneReg (x y : Nibble)
  /-- ANNN, LD I, nnn (R150). -/
  | ldI (nnn : Addr)
  /-- BNNN, JP V0, nnn (R103). -/
  | jpV0 (nnn : Addr)
  /-- CXKK, RND Vx, kk (R122). -/
  | rnd (x : Nibble) (kk : Byte)
  /-- DXYN, DRW Vx, Vy, n (R165). -/
  | drw (x y n : Nibble)
  /-- EX9E, SKP Vx (R180). -/
  | skp (x : Nibble)
  /-- EXA1, SKNP Vx (R181). -/
  | sknp (x : Nibble)
  /-- FX07, LD Vx, DT (R182). -/
  | ldVxDT (x : Nibble)
  /-- FX0A, LD Vx, K (R185). -/
  | ldVxK (x : Nibble)
  /-- FX15, LD DT, Vx (R183). -/
  | ldDTVx (x : Nibble)
  /-- FX18, LD ST, Vx (R184). -/
  | ldSTVx (x : Nibble)
  /-- FX1E, ADD I, Vx (R151). -/
  | addI (x : Nibble)
  /-- FX29, LD F, Vx (R152). -/
  | ldF (x : Nibble)
  /-- FX33, LD B, Vx (R153). -/
  | ldB (x : Nibble)
  /-- FX55, LD [I], Vx (R154). -/
  | storeRegs (x : Nibble)
  /-- FX65, LD Vx, [I] (R155). -/
  | loadRegs (x : Nibble)
  deriving DecidableEq, Repr

/-- The six formats of R72. -/
inductive Format where
  | z | a | ri | rr | rrn | r
  deriving DecidableEq, Repr

/-- One row of the opcode map R75: a word `op` spells the instruction exactly when `op &&& mask = pattern`. -/
structure Row where
  /-- The pattern column, which is the row's mnemonic in spec/opcode_table.json. -/
  mnemonic : String
  /-- The `mask` column. -/
  mask : Word
  /-- The `match` column. -/
  pattern : Word
  /-- The `format` column. -/
  format : Format
  /-- The assembler spelling (R87); it carries no meaning. -/
  name : String
  deriving DecidableEq, Repr

/-- The row of R75 that an instruction stands in. -/
def Instr.row : Instr → Row
  | .cls => ⟨"00E0", 0xFFFF, 0x00E0, .z, "CLS"⟩
  | .ret => ⟨"00EE", 0xFFFF, 0x00EE, .z, "RET"⟩
  | .jp _ => ⟨"1NNN", 0xF000, 0x1000, .a, "JP nnn"⟩
  | .call _ => ⟨"2NNN", 0xF000, 0x2000, .a, "CALL nnn"⟩
  | .seImm _ _ => ⟨"3XKK", 0xF000, 0x3000, .ri, "SE Vx, kk"⟩
  | .sneImm _ _ => ⟨"4XKK", 0xF000, 0x4000, .ri, "SNE Vx, kk"⟩
  | .seReg _ _ => ⟨"5XY0", 0xF00F, 0x5000, .rr, "SE Vx, Vy"⟩
  | .ldImm _ _ => ⟨"6XKK", 0xF000, 0x6000, .ri, "LD Vx, kk"⟩
  | .addImm _ _ => ⟨"7XKK", 0xF000, 0x7000, .ri, "ADD Vx, kk"⟩
  | .ldReg _ _ => ⟨"8XY0", 0xF00F, 0x8000, .rr, "LD Vx, Vy"⟩
  | .orReg _ _ => ⟨"8XY1", 0xF00F, 0x8001, .rr, "OR Vx, Vy"⟩
  | .andReg _ _ => ⟨"8XY2", 0xF00F, 0x8002, .rr, "AND Vx, Vy"⟩
  | .xorReg _ _ => ⟨"8XY3", 0xF00F, 0x8003, .rr, "XOR Vx, Vy"⟩
  | .addReg _ _ => ⟨"8XY4", 0xF00F, 0x8004, .rr, "ADD Vx, Vy"⟩
  | .sub _ _ => ⟨"8XY5", 0xF00F, 0x8005, .rr, "SUB Vx, Vy"⟩
  | .shr _ _ => ⟨"8XY6", 0xF00F, 0x8006, .rr, "SHR Vx"⟩
  | .subn _ _ => ⟨"8XY7", 0xF00F, 0x8007, .rr, "SUBN Vx, Vy"⟩
  | .shl _ _ => ⟨"8XYE", 0xF00F, 0x800E, .rr, "SHL Vx"⟩
  | .sneReg _ _ => ⟨"9XY0", 0xF00F, 0x9000, .rr, "SNE Vx, Vy"⟩
  | .ldI _ => ⟨"ANNN", 0xF000, 0xA000, .a, "LD I, nnn"⟩
  | .jpV0 _ => ⟨"BNNN", 0xF000, 0xB000, .a, "JP V0, nnn"⟩
  | .rnd _ _ => ⟨"CXKK", 0xF000, 0xC000, .ri, "RND Vx, kk"⟩
  | .drw _ _ _ => ⟨"DXYN", 0xF000, 0xD000, .rrn, "DRW Vx, Vy, n"⟩
  | .skp _ => ⟨"EX9E", 0xF0FF, 0xE09E, .r, "SKP Vx"⟩
  | .sknp _ => ⟨"EXA1", 0xF0FF, 0xE0A1, .r, "SKNP Vx"⟩
  | .ldVxDT _ => ⟨"FX07", 0xF0FF, 0xF007, .r, "LD Vx, DT"⟩
  | .ldVxK _ => ⟨"FX0A", 0xF0FF, 0xF00A, .r, "LD Vx, K"⟩
  | .ldDTVx _ => ⟨"FX15", 0xF0FF, 0xF015, .r, "LD DT, Vx"⟩
  | .ldSTVx _ => ⟨"FX18", 0xF0FF, 0xF018, .r, "LD ST, Vx"⟩
  | .addI _ => ⟨"FX1E", 0xF0FF, 0xF01E, .r, "ADD I, Vx"⟩
  | .ldF _ => ⟨"FX29", 0xF0FF, 0xF029, .r, "LD F, Vx"⟩
  | .ldB _ => ⟨"FX33", 0xF0FF, 0xF033, .r, "LD B, Vx"⟩
  | .storeRegs _ => ⟨"FX55", 0xF0FF, 0xF055, .r, "LD [I], Vx"⟩
  | .loadRegs _ => ⟨"FX65", 0xF0FF, 0xF065, .r, "LD Vx, [I]"⟩

/-- The opcode map R75: the 34 rows in its order. -/
def opcodeMap : List Row :=
  [Instr.cls, .ret, .jp 0, .call 0, .seImm 0 0, .sneImm 0 0, .seReg 0 0, .ldImm 0 0, .addImm 0 0].map Instr.row ++
  [Instr.ldReg 0 0, .orReg 0 0, .andReg 0 0, .xorReg 0 0, .addReg 0 0, .sub 0 0, .shr 0 0, .subn 0 0,
    .shl 0 0].map Instr.row ++
  [Instr.sneReg 0 0, .ldI 0, .jpV0 0, .rnd 0 0, .drw 0 0 0, .skp 0, .sknp 0].map Instr.row ++
  [Instr.ldVxDT 0, .ldVxK 0, .ldDTVx 0, .ldSTVx 0, .addI 0, .ldF 0, .ldB 0, .storeRegs 0, .loadRegs 0].map Instr.row

/-- Does the word spell the row's instruction (R75)? -/
def Row.spells (r : Row) (op : Word) : Bool := op &&& r.mask == r.pattern

end Sys2Proof
end

