-- ==== Sys2Proof/WellFormed.lean ====
section
/-! DEFINITION. When an instruction is well formed (R71, R73: each operand fits its field), and when an instruction
word is (R75, R80: it spells a row of the opcode map). -/

namespace Sys2Proof

/-- One operand of an instruction as R71 gives it: its value and how many values its field holds. -/
structure Operand where
  value : Nat
  bound : Nat
  deriving DecidableEq, Repr

/-- The check on one operand: its value is one the field can hold. -/
def Operand.fits (o : Operand) : Bool := o.value < o.bound

/-- A register operand `X`, `Y` or the nibble `N`: 16 values (R73). -/
def Operand.nibble (n : Nat) : Operand := ⟨n, 16⟩

/-- The immediate `KK`: 256 values (R73). -/
def Operand.byte (n : Nat) : Operand := ⟨n, 256⟩

/-- The immediate `NNN`: 4096 values (R73). -/
def Operand.addr (n : Nat) : Operand := ⟨n, 4096⟩

/-- The operands of an instruction, from the most significant field of its word down. -/
def Instr.operands : Instr → List Operand
  | .cls | .ret => []
  | .jp nnn | .call nnn | .ldI nnn | .jpV0 nnn => [.addr nnn.toNat]
  | .seImm x kk | .sneImm x kk | .ldImm x kk | .addImm x kk | .rnd x kk => [.nibble x.toNat, .byte kk.toNat]
  | .seReg x y | .sneReg x y | .ldReg x y | .orReg x y | .andReg x y | .xorReg x y | .addReg x y | .sub x y
  | .shr x y | .subn x y | .shl x y => [.nibble x.toNat, .nibble y.toNat]
  | .drw x y n => [.nibble x.toNat, .nibble y.toNat, .nibble n.toNat]
  | .skp x | .sknp x | .ldVxDT x | .ldVxK x | .ldDTVx x | .ldSTVx x | .addI x | .ldF x | .ldB x | .storeRegs x
  | .loadRegs x => [.nibble x.toNat]

/-- An instruction is well formed when every operand fits its field. The operand types of `Instr` have exactly the
widths of R71, so this holds of every instruction (`wellFormed_of_instr`): an ill-formed one cannot be written. -/
abbrev Instr.WellFormed (i : Instr) : Prop := i.operands.all Operand.fits = true

/-- An instruction word is well formed when some row of the opcode map spells it; the other words are the invalid
encodings of R80. -/
def wordWellFormed (op : Word) : Bool := opcodeMap.any (·.spells op)

theorem wellFormed_of_instr (i : Instr) : i.WellFormed := by
  cases i <;>
    simp [Instr.WellFormed, Instr.operands, Operand.fits, Operand.nibble, Operand.byte, Operand.addr, nibble_lt,
      byte_lt, addr_lt]

end Sys2Proof
end

