-- ==== Sys2Proof/Decode.lean ====
section
/-! DEFINITION. The decoder of R74 and R75, total on all words and rejecting the invalid ones of R80 by name; after it
the encoder, written from the pattern column of R75. -/

namespace Sys2Proof

/-- Why a word has no instruction. -/
inductive DecodeError where
  /-- The word matches no row of R75 (R80); InvalidOpcode carries the word (R201). -/
  | invalidOpcode (op : Word)
  deriving DecidableEq, Repr

/-- Field `P`, bits 15:12 (R71). -/
def fieldP (op : Word) : Nibble := op.extractLsb' 12 4

/-- Field `X`, bits 11:8 (R71). -/
def fieldX (op : Word) : Nibble := op.extractLsb' 8 4

/-- Field `Y`, bits 7:4 (R71). -/
def fieldY (op : Word) : Nibble := op.extractLsb' 4 4

/-- Field `N`, bits 3:0 (R71). -/
def fieldN (op : Word) : Nibble := op.extractLsb' 0 4

/-- Field `KK`, bits 7:0 (R71). -/
def fieldKK (op : Word) : Byte := op.extractLsb' 0 8

/-- Field `NNN`, bits 11:0 (R71). -/
def fieldNNN (op : Word) : Addr := op.extractLsb' 0 12

/-- Family 0: the whole word selects (R74); without strict decoding the low byte does (decision D3). -/
def decode0 (strict : Bool) (op : Word) : Except DecodeError Instr :=
  if strict && fieldX op != 0 then .error (.invalidOpcode op)
  else match (fieldKK op).toNat with
    | 0xE0 => .ok .cls
    | 0xEE => .ok .ret
    | _ => .error (.invalidOpcode op)

/-- Families 5 and 9: `N` must be 0 (R74); without strict decoding it is not looked at (decision D3). -/
def decodeN0 (strict : Bool) (op : Word) (i : Instr) : Except DecodeError Instr :=
  if strict && fieldN op != 0 then .error (.invalidOpcode op) else .ok i

/-- Family 8: the low nibble selects (R74). -/
def decode8 (op : Word) : Except DecodeError Instr :=
  let x := fieldX op
  let y := fieldY op
  match (fieldN op).toNat with
  | 0x0 => .ok (.ldReg x y)
  | 0x1 => .ok (.orReg x y)
  | 0x2 => .ok (.andReg x y)
  | 0x3 => .ok (.xorReg x y)
  | 0x4 => .ok (.addReg x y)
  | 0x5 => .ok (.sub x y)
  | 0x6 => .ok (.shr x y)
  | 0x7 => .ok (.subn x y)
  | 0xE => .ok (.shl x y)
  | _ => .error (.invalidOpcode op)

/-- Family E: the low byte selects (R74). -/
def decodeE (op : Word) : Except DecodeError Instr :=
  match (fieldKK op).toNat with
  | 0x9E => .ok (.skp (fieldX op))
  | 0xA1 => .ok (.sknp (fieldX op))
  | _ => .error (.invalidOpcode op)

/-- Family F: the low byte selects (R74). -/
def decodeF (op : Word) : Except DecodeError Instr :=
  let x := fieldX op
  match (fieldKK op).toNat with
  | 0x07 => .ok (.ldVxDT x)
  | 0x0A => .ok (.ldVxK x)
  | 0x15 => .ok (.ldDTVx x)
  | 0x18 => .ok (.ldSTVx x)
  | 0x1E => .ok (.addI x)
  | 0x29 => .ok (.ldF x)
  | 0x33 => .ok (.ldB x)
  | 0x55 => .ok (.storeRegs x)
  | 0x65 => .ok (.loadRegs x)
  | _ => .error (.invalidOpcode op)

/-- The decode tree of R74, with the parameter STRICT_DECODE of R6. -/
def decodeWith (strict : Bool) (op : Word) : Except DecodeError Instr :=
  match (fieldP op).toNat with
  | 0x0 => decode0 strict op
  | 0x1 => .ok (.jp (fieldNNN op))
  | 0x2 => .ok (.call (fieldNNN op))
  | 0x3 => .ok (.seImm (fieldX op) (fieldKK op))
  | 0x4 => .ok (.sneImm (fieldX op) (fieldKK op))
  | 0x5 => decodeN0 strict op (.seReg (fieldX op) (fieldY op))
  | 0x6 => .ok (.ldImm (fieldX op) (fieldKK op))
  | 0x7 => .ok (.addImm (fieldX op) (fieldKK op))
  | 0x8 => decode8 op
  | 0x9 => decodeN0 strict op (.sneReg (fieldX op) (fieldY op))
  | 0xA => .ok (.ldI (fieldNNN op))
  | 0xB => .ok (.jpV0 (fieldNNN op))
  | 0xC => .ok (.rnd (fieldX op) (fieldKK op))
  | 0xD => .ok (.drw (fieldX op) (fieldY op) (fieldN op))
  | 0xE => decodeE op
  | 0xF => decodeF op
  | _ => .error (.invalidOpcode op)

/-- The decoder of the machine: strict, as R74 and R80 say. -/
def decode (op : Word) : Except DecodeError Instr := decodeWith Machine.strictDecode op

/-- The instruction word of two bytes in fetch order, most significant first (R56, R70). -/
def wordOfBytes (hi lo : Byte) : Word := hi ++ lo

/-- The byte of an instruction word at the lower address (R56). -/
def hiByte (op : Word) : Byte := op.extractLsb' 8 8

/-- The byte of an instruction word at the higher address (R56). -/
def loByte (op : Word) : Byte := op.extractLsb' 0 8

/-- Decoding of the two bytes of an instruction in fetch order. -/
def decodeBytes (hi lo : Byte) : Except DecodeError Instr := decode (wordOfBytes hi lo)

/-- Format A of R72: `P`, `NNN`. -/
def encodeA (p : Nibble) (nnn : Addr) : Word := p ++ nnn

/-- Format RI of R72: `P`, `X`, `KK`; also format R, whose low byte is fixed. -/
def encodeRI (p x : Nibble) (kk : Byte) : Word := p ++ (x ++ kk)

/-- Format RR of R72, whose low nibble is fixed, and format RRN: `P`, `X`, `Y`, `N`. -/
def encodeRRN (p x y n : Nibble) : Word := p ++ (x ++ (y ++ n))

/-- The word of an instruction, from the pattern column of R75. -/
def encode : Instr → Word
  | .cls => 0x00E0
  | .ret => 0x00EE
  | .jp nnn => encodeA 0x1 nnn
  | .call nnn => encodeA 0x2 nnn
  | .seImm x kk => encodeRI 0x3 x kk
  | .sneImm x kk => encodeRI 0x4 x kk
  | .seReg x y => encodeRRN 0x5 x y 0x0
  | .ldImm x kk => encodeRI 0x6 x kk
  | .addImm x kk => encodeRI 0x7 x kk
  | .ldReg x y => encodeRRN 0x8 x y 0x0
  | .orReg x y => encodeRRN 0x8 x y 0x1
  | .andReg x y => encodeRRN 0x8 x y 0x2
  | .xorReg x y => encodeRRN 0x8 x y 0x3
  | .addReg x y => encodeRRN 0x8 x y 0x4
  | .sub x y => encodeRRN 0x8 x y 0x5
  | .shr x y => encodeRRN 0x8 x y 0x6
  | .subn x y => encodeRRN 0x8 x y 0x7
  | .shl x y => encodeRRN 0x8 x y 0xE
  | .sneReg x y => encodeRRN 0x9 x y 0x0
  | .ldI nnn => encodeA 0xA nnn
  | .jpV0 nnn => encodeA 0xB nnn
  | .rnd x kk => encodeRI 0xC x kk
  | .drw x y n => encodeRRN 0xD x y n
  | .skp x => encodeRI 0xE x 0x9E
  | .sknp x => encodeRI 0xE x 0xA1
  | .ldVxDT x => encodeRI 0xF x 0x07
  | .ldVxK x => encodeRI 0xF x 0x0A
  | .ldDTVx x => encodeRI 0xF x 0x15
  | .ldSTVx x => encodeRI 0xF x 0x18
  | .addI x => encodeRI 0xF x 0x1E
  | .ldF x => encodeRI 0xF x 0x29
  | .ldB x => encodeRI 0xF x 0x33
  | .storeRegs x => encodeRI 0xF x 0x55
  | .loadRegs x => encodeRI 0xF x 0x65

/-- The bytes of a program in memory order: two per instruction, most significant first (R70, R87). -/
def assemble (is : List Instr) : List Byte := is.flatMap fun i => [hiByte (encode i), loByte (encode i)]

/-- The host's reading of a table word: the low `nbits` bits of `w` laid out as the hardware stores an instruction
(high byte first) and given to the decoder. -/
def decodeTableWord (nbits w : Nat) : Option Instr :=
  let op : Word := BitVec.ofNat 16 (w % 2 ^ nbits)
  (decodeBytes (hiByte op) (loByte op)).toOption

end Sys2Proof
end

