-- ==== Sys2Proof/Machine/Framebuffer.lean ====
section
/-! DEFINITION. The Framebuffer component (R160 to R163): clear, getPixel, setPixel, drawSprite. It knows no
instruction. -/

namespace Sys2Proof.Machine

/-- `clear()` of R160: every pixel 0. -/
def fbClear : Framebuffer := Vector.replicate 32 (Vector.replicate 64 false)

/-- `getPixel(x, y)` of R161: `FB[y mod 32][x mod 64]`. -/
def getPixel (fb : Framebuffer) (x y : Nat) : Bool :=
  (fb[y % 32]'(Nat.mod_lt _ (by decide)))[x % 64]'(Nat.mod_lt _ (by decide))

/-- `setPixel(x, y, v)` of R161: `FB[y mod 32][x mod 64] <- v`. -/
def setPixel (fb : Framebuffer) (x y : Nat) (v : Bool) : Framebuffer :=
  fb.set (y % 32) ((fb[y % 32]'(Nat.mod_lt _ (by decide))).set (x % 64) v (Nat.mod_lt _ (by decide)))
    (Nat.mod_lt _ (by decide))

/-- The bit of a sprite row at the sprite-local column `dx`, 0 to 7: bit `7 - dx` of the byte (R163). -/
def spriteBit (row : Byte) (dx : Nat) : Bool := row.getLsbD (7 - dx)

/-- One bit of `drawSprite` (R162): the pixel takes the XOR of its value in `before` and the sprite's bit; a collision
is a bit of 1 on a pixel that was 1 in `before`. -/
def drawBit (before : Framebuffer) (px py : Nat) (b : Bool) (acc : Framebuffer × Bool) : Framebuffer × Bool :=
  let t := getPixel before px py
  (setPixel acc.1 px py (t ^^ b), acc.2 || (t && b))

/-- The columns `0` to `n - 1` of one sprite row at `(x, y)`, from the left (R162). -/
def drawColumns (before : Framebuffer) (x y : Nat) (row : Byte) :
    Nat → Framebuffer × Bool → Framebuffer × Bool
  | 0, acc => acc
  | n + 1, acc => drawBit before (x + n) y (spriteBit row n) (drawColumns before x y row n acc)

/-- The rows of a sprite, the first at `y`, each of 8 columns (R162, R163). -/
def drawRows (before : Framebuffer) (x : Nat) : Nat → List Byte → Framebuffer × Bool → Framebuffer × Bool
  | _, [], acc => acc
  | y, row :: rows, acc => drawRows before x (y + 1) rows (drawColumns before x y row 8 acc)

/-- `drawSprite(x, y, rows)` of R162: the new grid, and whether any bit collided. Every pixel is read from the grid as
it was when the call began. -/
def drawSprite (fb : Framebuffer) (x y : Nat) (rows : List Byte) : Framebuffer × Bool :=
  drawRows fb x y rows (fb, false)

end Sys2Proof.Machine
end

