-- ==== Sys2Proof/Machine/Ops.lean ====
section
/-! DEFINITION. The named operations over memory, registers, pc and stack, raising an error, and fetch. -/

namespace Sys2Proof.Machine

/-- What a meaning answers. -/
abbrev Result := Host.Outcome State Fault Refusal

/-! Memory (R50 to R53). -/

/-- What a cell that nothing has written reads as: its reset contents, the font at 0x000 to 0x04F and 0 above (R36). -/
def Memory.initial (a : Nat) : Byte := font.getD a 0

/-- `MemRead(a, 1)` of R52 on the list of cells. -/
def Memory.read : Memory → Nat → Byte
  | [], a => Memory.initial a
  | (b, v) :: rest, a => if b = a then v else Memory.read rest a

/-- A cell put in its place by rising address. -/
def Memory.insertCell : Memory → Nat → Byte → Memory
  | [], a, v => [(a, v)]
  | (b, w) :: rest, a, v => if a < b then (a, v) :: (b, w) :: rest else (b, w) :: Memory.insertCell rest a v

/-- `MemWrite(a, 1, v)` of R53 on the list of cells: the old entry of `a` goes; a new one is listed unless `v` is what
an unlisted cell reads as. -/
def Memory.write (m : Memory) (a : Nat) (v : Byte) : Memory :=
  let rest := m.filter fun c => c.1 != a
  if v = Memory.initial a then rest else Memory.insertCell rest a v

/-- The canonical form: addresses strictly rising and below 4096, no cell equal to its reset contents. -/
abbrev Memory.wf (m : Memory) : Prop :=
  m.Pairwise (fun c d => c.1 < d.1) ∧ ∀ c ∈ m, c.1 < Config.memSize ∧ c.2 ≠ Memory.initial c.1

/-- `MemRead(a, 1)` (R52). -/
def State.memRead (s : State) (a : Addr) : Byte := s.mem.read a.toNat

/-- `MemWrite(a, 1, v)` (R53). -/
def State.memWrite (s : State) (a : Addr) (v : Byte) : State := { s with mem := s.mem.write a.toNat v }

/-! Registers (R20). -/

/-- Read of `V[x]`. -/
def State.reg (s : State) (x : Nibble) : Byte := s.v[x.toNat]'(nibble_lt x)

/-- `V[x] <- b`. -/
def State.setReg (s : State) (x : Nibble) (b : Byte) : State := { s with v := s.v.set x.toNat b (nibble_lt x) }

/-- `I <- w` (R23). -/
def State.setI (s : State) (w : Word) : State := { s with i := w }

/-! The program counter (R24, R25). -/

/-- `pc <- target`. -/
def State.jump (s : State) (target : Word) : State := { s with pc := target }

/-- `pc <- pc + 2`. The sum is kept modulo 65536, which no cycle that fetches can observe (R25):
notes/assumptions/15.md. -/
def State.advance (s : State) : State := s.jump (s.pc + 2)

/-- `pc <- pc + 4` if the skip's condition holds, else `pc <- pc + 2` (R114). -/
def State.skipIf (s : State) (c : Bool) : State := s.jump (s.pc + if c then 4 else 2)

/-! Errors (R203, R212): entry is the latch alone; there is no return (R213). -/

/-- `raise E` of R203: the cycle ends, `ERR <- E`, and no other state changes. -/
def raise (e : FatalError) (s : State) : Result := .next { s with err := some e }

/-- The end of an instruction that may raise an error: every check comes before the first write (R203). -/
def finish (s : State) : Except FatalError State → Result
  | .ok t => .next t
  | .error e => raise e s

/-- The value of `ERR` as R201 numbers it, 0 for None. -/
def State.errCode (s : State) : Nat := (s.err.map FatalError.code).getD 0

/-! The stack (R27). -/

/-- A slot of the stack. -/
def State.slot (s : State) (n : Nibble) : Word := s.stack[n.toNat]'(nibble_lt n)

/-- `Push(w)` of R27: StackOverflow when `SP = 15`, else `SP + 1` and then the store. -/
def State.push (s : State) (w : Word) : Except FatalError State :=
  if s.sp = 15 then .error .stackOverflow
  else .ok { s with sp := s.sp + 1, stack := s.stack.set (s.sp + 1).toNat w (nibble_lt _) }

/-- `Pop()` of R27: StackUnderflow when `SP = 0`, else the slot's value and then `SP - 1`; the slot keeps its value. -/
def State.pop (s : State) : Except FatalError (Word × State) :=
  if s.sp = 0 then .error .stackUnderflow
  else .ok (s.slot s.sp, { s with sp := s.sp - 1 })

/-! Fetch and decode (R85, R86). -/

/-- `Fetch()` of R85: the big-endian word at `pc`, or OutOfBounds above 0xFFE. It changes no state. -/
def State.fetch (s : State) : Except FatalError Word :=
  if Config.lastFetch < s.pc.toNat then .error .outOfBounds
  else .ok (wordOfBytes (s.memRead (BitVec.ofNat 12 s.pc.toNat)) (s.memRead (BitVec.ofNat 12 (s.pc.toNat + 1))))

/-- Fetch and then decode, in the order of R211: OutOfBounds before InvalidOpcode; with the parameter STRICT_DECODE. -/
def State.fetchInstrWith (strict : Bool) (s : State) : Except FatalError Instr :=
  match s.fetch with
  | .error e => .error e
  | .ok op =>
    match decodeWith strict op with
    | .error _ => .error .invalidOpcode
    | .ok i => .ok i

/-- Fetch and decode with the spec's STRICT_DECODE. -/
def State.fetchInstr (s : State) : Except FatalError Instr := s.fetchInstrWith strictDecode

/-! The cycle (R86). -/

/-- The shape of a cycle: a stopped machine changes nothing and goes on showing its error in `ERR` (R204); a waiting one
polls the keys (R185); otherwise fetch, decode, execute. -/
def cycleOf (fetch : State → Except FatalError Instr) (poll : State → Result) (run : Instr → State → Result)
    (s : State) : Result :=
  match s.err with
  | some _ => .next s
  | none =>
    if s.wait then poll s
    else
      match fetch s with
      | .error e => raise e s
      | .ok i => run i s

end Sys2Proof.Machine
end

