-- ==== Sys2Proof/Machine/Flags.lean ====
section
/-! DEFINITION. The flag computations of the instructions that write VF (R21, R139), each 0 or 1. -/

namespace Sys2Proof.Machine

/-- The register that doubles as the flag, VF (R21). -/
abbrev vf : Nibble := 0xF

/-- A flag as the byte VF takes, 1 or 0. -/
def flag (c : Bool) : Byte := if c then 1 else 0

/-- The exact sum of two registers, 0 to 510 (R134). -/
def sumOf (a b : Byte) : Nat := a.toNat + b.toNat

/-- The carry of 8XY4: the sum exceeds 255 (R134). -/
def carryFlag (a b : Byte) : Byte := flag (255 < sumOf a b)

/-- The flag of 8XY5 and 8XY7 for `a - b`: 1 when `a` is strictly greater, SUB_EQ_VF `eqVf` when they are equal, else 0
(R135, R137, conflict C3). -/
def noBorrowFlagWith (eqVf a b : Byte) : Byte := if a = b then eqVf else flag (b.toNat < a.toNat)

/-- The flag of 8XY5 and 8XY7 with the spec's SUB_EQ_VF. -/
def noBorrowFlag (a b : Byte) : Byte := noBorrowFlagWith subEqVf a b

/-- The bit 8XY6 shifts out, bit 0 (R136). -/
def shrFlag (a : Byte) : Byte := flag (a.getLsbD 0)

/-- The bit 8XYE shifts out, bit 7 (R138). -/
def shlFlag (a : Byte) : Byte := flag (a.getLsbD 7)

/-- VF takes a flag. -/
def State.setFlag (s : State) (f : Byte) : State := s.setReg vf f

end Sys2Proof.Machine
end

