-- ==== Sys2Proof/Machine/Operands.lean ====
section
/-! DEFINITION. The operand forms of R73 and R156 beyond a plain register or immediate: zero extension, the effective
address, the key a register names, a glyph's address, decimal digits, sprite rows. -/

namespace Sys2Proof.Machine

/-- `zext_16(NNN)` (R73). -/
def zextAddr (nnn : Addr) : Word := nnn.setWidth 16

/-- `zext_16` of a register (R103, R151). -/
def zextByte (b : Byte) : Word := b.setWidth 16

/-- `zext_8` of a nibble: a key index written to a register (R185). -/
def zextNibble (n : Nibble) : Byte := n.setWidth 8

/-- `EA(k) = (I + k) mod 4096` (R55). -/
def State.ea (s : State) (k : Nat) : Addr := BitVec.ofNat 12 (s.i.toNat + k)

/-- The low nibble of a register, `V[X] & 0x0F`: the key it names (R186) and the glyph it names (R152). -/
def lowNibble (b : Byte) : Nibble := b.setWidth 4

/-- Is the key that `V[x]` names pressed (R180, R186)? -/
def State.keyOf (s : State) (x : Nibble) : Bool := s.key[(lowNibble (s.reg x)).toNat]'(nibble_lt _)

/-- The address of the font glyph of the low nibble of a register, `5 * (V[X] & 0x0F)` (R152). -/
def glyphAddr (b : Byte) : Word := BitVec.ofNat 16 (5 * (lowNibble b).toNat)

/-- The hundreds digit of R153. -/
def hundreds (b : Byte) : Byte := BitVec.ofNat 8 (b.toNat / 100)

/-- The tens digit of R153. -/
def tens (b : Byte) : Byte := BitVec.ofNat 8 (b.toNat / 10 % 10)

/-- The ones digit of R153. -/
def ones (b : Byte) : Byte := BitVec.ofNat 8 (b.toNat % 10)

/-- The sprite rows of DXYN: `MemRead(EA(r), 1)` for `r` in `0 .. n - 1` (R165). -/
def State.spriteRows (s : State) (n : Nibble) : List Byte :=
  (List.range n.toNat).map fun r => s.memRead (s.ea r)

/-- `for i in 0 .. n - 1: MemWrite(EA(i), 1, V[i])`, the transfer of FX55 (R154). -/
def State.storeUpTo (s : State) : Nat → State
  | 0 => s
  | n + 1 => (s.storeUpTo n).memWrite (s.ea n) (s.reg (BitVec.ofNat 4 n))

/-- `for i in 0 .. n - 1: V[i] <- MemRead(EA(i), 1)`, the transfer of FX65 (R155). -/
def State.loadUpTo (s : State) : Nat → State
  | 0 => s
  | n + 1 => (s.loadUpTo n).setReg (BitVec.ofNat 4 n) (s.memRead (s.ea n))

end Sys2Proof.Machine
end

