-- ==== Sys2Proof/Machine/Alu.lean ====
section
/-! DEFINITION. Register-register arithmetic and logic: 8XY0 to 8XY7, 8XYE (R130 to R140). The rows that write a flag
assign VF first and VX second, each reading the state the one before it left (R8, R140, decision D2):
notes/assumptions/11.md. -/

namespace Sys2Proof.Machine

/-- 8XY0 (R130): `VX <- VY`. -/
def execLdReg (x y : Nibble) (s : State) : Result := .next (s.setReg x (s.reg y)).advance

/-- 8XY1 (R131): `VX <- VX | VY`, no flag. -/
def execOr (x y : Nibble) (s : State) : Result := .next (s.setReg x (s.reg x ||| s.reg y)).advance

/-- 8XY2 (R132): `VX <- VX & VY`, no flag. -/
def execAnd (x y : Nibble) (s : State) : Result := .next (s.setReg x (s.reg x &&& s.reg y)).advance

/-- 8XY3 (R133): `VX <- VX xor VY`, no flag. -/
def execXor (x y : Nibble) (s : State) : Result := .next (s.setReg x (s.reg x ^^^ s.reg y)).advance

/-- 8XY4 (R134): the sum is taken before VF is written. -/
def execAddReg (x y : Nibble) (s : State) : Result :=
  let t := s.setFlag (carryFlag (s.reg x) (s.reg y))
  .next (t.setReg x (BitVec.ofNat 8 (sumOf (s.reg x) (s.reg y)))).advance

/-- VF takes `f`, then VX the difference `minuend - subtrahend` of registers that are read again after that. -/
def setFlagThenSub (f : Byte) (x minuend subtrahend : Nibble) (s : State) : Result :=
  let t := s.setFlag f
  .next (t.setReg x (t.reg minuend - t.reg subtrahend)).advance

/-- 8XY5 (R135) with SUB_EQ_VF given: VF, then `VX <- VX - VY` with both read again. -/
def execSubWith (eqVf : Byte) (x y : Nibble) (s : State) : Result :=
  setFlagThenSub (noBorrowFlagWith eqVf (s.reg x) (s.reg y)) x x y s

/-- 8XY5 (R135). -/
def execSub (x y : Nibble) (s : State) : Result := execSubWith subEqVf x y s

/-- 8XY6 (R136): VF, then `VX <- VX >> 1` with VX read again; `y` is ignored (R76). -/
def execShr (x _y : Nibble) (s : State) : Result :=
  let t := s.setFlag (shrFlag (s.reg x))
  .next (t.setReg x (t.reg x >>> 1)).advance

/-- 8XY7 (R137) with SUB_EQ_VF given: VF, then `VX <- VY - VX` with both read again. -/
def execSubnWith (eqVf : Byte) (x y : Nibble) (s : State) : Result :=
  setFlagThenSub (noBorrowFlagWith eqVf (s.reg y) (s.reg x)) x y x s

/-- 8XY7 (R137). -/
def execSubn (x y : Nibble) (s : State) : Result := execSubnWith subEqVf x y s

/-- 8XYE (R138): VF, then `VX <- VX << 1` with VX read again; `y` is ignored (R76). -/
def execShl (x _y : Nibble) (s : State) : Result :=
  let t := s.setFlag (shlFlag (s.reg x))
  .next (t.setReg x (t.reg x <<< 1)).advance

end Sys2Proof.Machine
end

