-- ==== Sys2Proof/Machine/Const.lean ====
section
/-! DEFINITION. The register-immediate operations: 6XKK, 7XKK, CXKK (R120 to R122). -/

namespace Sys2Proof.Machine

/-- 6XKK (R120): `VX <- KK`. -/
def execLdImm (x : Nibble) (kk : Byte) (s : State) : Result := .next (s.setReg x kk).advance

/-- 7XKK (R121): `VX <- (VX + KK) mod 256`, no flag. -/
def execAddImm (x : Nibble) (kk : Byte) (s : State) : Result := .next (s.setReg x (s.reg x + kk)).advance

/-- CXKK with the random byte given, the input of `cycle(rand)` (R86, R122): `VX <- rand & KK`. The draw is counted, so
that the next execution has a free value of its own. -/
def rndWith (rand : Byte) (x : Nibble) (kk : Byte) (s : State) : Result :=
  .next { (s.setReg x (rand &&& kk)).advance with draws := s.draws + 1 }

/-- CXKK (R122): the random byte is a free value. -/
def execRnd (x : Nibble) (kk : Byte) (s : State) : Result := rndWith (Config.rand s.draws) x kk s

end Sys2Proof.Machine
end

