-- ==== Sys2Proof/Machine/Display.lean ====
section
/-! DEFINITION. The display instructions: 00E0, DXYN (R164, R165). -/

namespace Sys2Proof.Machine

/-- 00E0 (R164): `clear()`, `REDRAW <- true`. -/
def execCls (s : State) : Result := .next { s with fb := fbClear, redraw := true }.advance

/-- DXYN (R165): coordinates and rows are read before VF is written; `REDRAW` is set, also for `N = 0`. -/
def execDrw (x y n : Nibble) (s : State) : Result :=
  let d := drawSprite s.fb (s.reg x).toNat (s.reg y).toNat (s.spriteRows n)
  .next ({ s with fb := d.1, redraw := true }.setFlag (flag d.2)).advance

end Sys2Proof.Machine
end

