-- ==== Sys2Proof/Machine/Flow.lean ====
section
/-! DEFINITION. Control transfer: 00EE, 1NNN, 2NNN, BNNN (R100 to R104). -/

namespace Sys2Proof.Machine

/-- 00EE (R100): StackUnderflow when `SP = 0`; else `pc <- Pop() + 2`. -/
def execRet (s : State) : Result :=
  finish s (s.pop.map fun p => p.2.jump (p.1 + 2))

/-- 1NNN (R101): `pc <- NNN`. -/
def execJp (nnn : Addr) (s : State) : Result := .next (s.jump (zextAddr nnn))

/-- 2NNN (R102): StackOverflow when `SP = 15`; else `Push(pc)`, the call's own address, and `pc <- NNN`. -/
def execCall (nnn : Addr) (s : State) : Result :=
  finish s ((s.push s.pc).map fun t => t.jump (zextAddr nnn))

/-- BNNN (R103): `pc <- NNN + V0`, not reduced modulo 4096 (decision D27). -/
def execJpV0 (nnn : Addr) (s : State) : Result := .next (s.jump (zextAddr nnn + zextByte (s.reg 0)))

end Sys2Proof.Machine
end

