-- ==== Sys2Proof/Machine/IndexMemory.lean ====
section
/-! DEFINITION. The index register and memory transfers: ANNN, FX1E, FX29, FX33, FX55, FX65 (R150 to R156). -/

namespace Sys2Proof.Machine

/-- ANNN (R150): `I <- NNN`. -/
def execLdI (nnn : Addr) (s : State) : Result := .next (s.setI (zextAddr nnn)).advance

/-- FX1E (R151): `I <- (I + VX) mod 65536`, no flag. -/
def execAddI (x : Nibble) (s : State) : Result := .next (s.setI (s.i + zextByte (s.reg x))).advance

/-- FX29 (R152): `I <- 5 * (VX & 0x0F)`. -/
def execLdF (x : Nibble) (s : State) : Result := .next (s.setI (glyphAddr (s.reg x))).advance

/-- FX33 (R153): the three decimal digits of VX to `EA(0)`, `EA(1)`, `EA(2)`. -/
def execLdB (x : Nibble) (s : State) : Result :=
  let b := s.reg x
  .next (((s.memWrite (s.ea 0) (hundreds b)).memWrite (s.ea 1) (tens b)).memWrite (s.ea 2) (ones b)).advance

/-- FX55 (R154): `V[0]` to `V[X]` to `EA(0)` to `EA(X)`; `I` unchanged. -/
def execStoreRegs (x : Nibble) (s : State) : Result := .next (s.storeUpTo (x.toNat + 1)).advance

/-- FX65 (R155): `EA(0)` to `EA(X)` to `V[0]` to `V[X]`; `I` unchanged. -/
def execLoadRegs (x : Nibble) (s : State) : Result := .next (s.loadUpTo (x.toNat + 1)).advance

end Sys2Proof.Machine
end

