-- ==== Sys2Proof/Machine/KeysTimers.lean ====
section
/-! DEFINITION. Keys and timers: EX9E, EXA1, FX0A, FX07, FX15, FX18 (R180 to R187), and the waiting arm of the cycle
(R86, R185). -/

namespace Sys2Proof.Machine

/-- EX9E (R180): skip if the key VX names is pressed. -/
def execSkp (x : Nibble) (s : State) : Result := .next (s.skipIf (s.keyOf x))

/-- EXA1 (R181): skip if the key VX names is not pressed. -/
def execSknp (x : Nibble) (s : State) : Result := .next (s.skipIf (!s.keyOf x))

/-- FX0A, the cycle that fetches it (R185), with KEYSEL given: a pressed key completes it at once, else the machine
enters AwaitingKey with `pc` unchanged. -/
def execLdVxKWith (sel : Vector Bool 16 → Nibble) (x : Nibble) (s : State) : Result :=
  match keySelWith sel s.key with
  | some k => .next (s.setReg x (zextNibble k)).advance
  | none => .next { s with wait := true, waitX := x }

/-- FX0A (R185) with the spec's KEYSEL. -/
def execLdVxK (x : Nibble) (s : State) : Result := execLdVxKWith lowestKey x s

/-- A cycle while `WAIT` is true (R86, R185), with KEYSEL given: nothing is fetched; a pressed key ends the wait. -/
def pollKeyWith (sel : Vector Bool 16 → Nibble) (s : State) : Result :=
  match keySelWith sel s.key with
  | some k => .next { (s.setReg s.waitX (zextNibble k)).advance with wait := false }
  | none => .next s

/-- A cycle while `WAIT` is true, with the spec's KEYSEL. -/
def pollKey (s : State) : Result := pollKeyWith lowestKey s

/-- FX07 (R182, R187): `VX <- DT`. PRESUMED, unsafe: notes/assumptions/2.md. -/
def execLdVxDT (x : Nibble) (s : State) : Result := .next (s.setReg x s.dt).advance

/-- FX15 (R183, R187): `DT <- VX`. PRESUMED, unsafe: notes/assumptions/2.md. -/
def execLdDTVx (x : Nibble) (s : State) : Result := .next { s with dt := s.reg x }.advance

/-- FX18 (R184, R187): `ST <- VX`. PRESUMED, unsafe: notes/assumptions/2.md. -/
def execLdSTVx (x : Nibble) (s : State) : Result := .next { s with st := s.reg x }.advance

end Sys2Proof.Machine
end

