-- ==== Sys2Proof/Machine/Skip.lean ====
section
/-! DEFINITION. The conditional skips on registers: 3XKK, 4XKK, 5XY0, 9XY0 (R110 to R114). -/

namespace Sys2Proof.Machine

/-- 3XKK (R110): skip if `VX = KK`. -/
def execSeImm (x : Nibble) (kk : Byte) (s : State) : Result := .next (s.skipIf (s.reg x == kk))

/-- 4XKK (R111): skip if `VX != KK`. -/
def execSneImm (x : Nibble) (kk : Byte) (s : State) : Result := .next (s.skipIf (s.reg x != kk))

/-- 5XY0 (R112): skip if `VX = VY`. -/
def execSeReg (x y : Nibble) (s : State) : Result := .next (s.skipIf (s.reg x == s.reg y))

/-- 9XY0 (R113): skip if `VX != VY`. -/
def execSneReg (x y : Nibble) (s : State) : Result := .next (s.skipIf (s.reg x != s.reg y))

end Sys2Proof.Machine
end

