-- ==== Sys2Proof/Machine/Step.lean ====
section
/-! DEFINITION. The step of the machine: one `cycle` of R86, its random byte free. -/

namespace Sys2Proof.Machine

/-- One cycle (R86), its open parameters at the values of R6's third column. With any parameters: `stepWith`. -/
def step (s : State) : Host.Outcome State Fault Refusal := cycleOf State.fetchInstr pollKey exec s

/-- The state with an instruction word stored where the next step fetches: at `pc`, high byte first. The fetch also
needs no error, no key wait and a `pc` of at most 0xFFE; from reset all three hold already. How a program comes to run
from reset: notes/assumptions/21.md. -/
def State.withFetchWord (s : State) (nbits w : Nat) : State :=
  let op : Word := BitVec.ofNat 16 (w % 2 ^ nbits)
  let pc : Word := if Config.lastFetch < s.pc.toNat then 0x200 else s.pc
  let t := { s with pc := pc, err := none, wait := false }
  (t.memWrite (BitVec.ofNat 12 pc.toNat) (hiByte op)).memWrite (BitVec.ofNat 12 (pc.toNat + 1)) (loByte op)

end Sys2Proof.Machine
end

