-- ==== Sys2Proof/Machine/Open.lean ====
section
/-! DEFINITION. The machine with the open parameters of R6 as an argument: the meanings that read one, the cycle, and
reset. `Params.spec` gives `exec`, `step` and `State.reset` (Laws/Open.lean). -/

namespace Sys2Proof.Machine

/-- The execute part of a cycle: SUB_EQ_VF matters to 8XY5 and 8XY7, KEYSEL to FX0A, nothing to the others. -/
def execWith (p : Params) (i : Instr) (s : State) : Result :=
  match i with
  | .sub x y => execSubWith p.subEqVf x y s
  | .subn x y => execSubnWith p.subEqVf x y s
  | .ldVxK x => execLdVxKWith p.keySel x s
  | .cls | .ret | .jp _ | .call _ | .seImm _ _ | .sneImm _ _ | .seReg _ _ | .ldImm _ _ | .addImm _ _ | .ldReg _ _
  | .orReg _ _ | .andReg _ _ | .xorReg _ _ | .addReg _ _ | .shr _ _ | .shl _ _ | .sneReg _ _ | .ldI _ | .jpV0 _
  | .rnd _ _ | .drw _ _ _ | .skp _ | .sknp _ | .ldVxDT _ | .ldDTVx _ | .ldSTVx _ | .addI _ | .ldF _ | .ldB _
  | .storeRegs _ | .loadRegs _ => exec i s

/-- One cycle (R86) of the machine with the parameters `p`, its random byte free. -/
def stepWith (p : Params) (s : State) : Result :=
  cycleOf (State.fetchInstrWith p.strictDecode) (pollKeyWith p.keySel) (execWith p) s

/-- Bytes written to consecutive cells from `a` up. -/
def writeBytes (s : State) : Nat → List Byte → State
  | _, [] => s
  | a, b :: bs => writeBytes (s.memWrite (BitVec.ofNat 12 a) b) (a + 1) bs

/-- The state after reset with FONT given: the table of R36, the font bytes from FONT_BASE, 0x000 (R33). -/
def State.resetWith (fontBytes : List Byte) : State := writeBytes State.reset 0 fontBytes

end Sys2Proof.Machine
end

