-- ==== Sys2Proof/Machine/Transactions.lean ====
section
/-! DEFINITION. The host interface (R220 to R229, R240, R243): every transaction of the spec, the launch window, what
the host is told, and what it can read. `step` alone is the `cycle` with a free random byte; which transactions come
between two cycles is the host's choice (R220, U17). A name that ends in With takes the open parameters of R6 as an
argument; the name without it has them at the values of R6's third column. -/

namespace Sys2Proof.Machine

/-! The transactions as operations on the state. -/

/-- A timer tick on one counter: minus 1, floored at 0 (R222). -/
def tick (t : Byte) : Byte := if t = 0 then 0 else t - 1

/-- `tickTimers` (R222): both timers, in every state of the machine. -/
def tickTimers (s : State) : State := { s with dt := tick s.dt, st := tick s.st }

/-- `setKey(k, pressed)` for a key index of the machine (R223). -/
def setKey (k : Nibble) (pressed : Bool) (s : State) : State :=
  { s with key := s.key.set k.toNat pressed (nibble_lt k) }

/-- `consumeRedraw` (R224). -/
def consumeRedraw (s : State) : State := { s with redraw := false }

/-- `loadProgram(bytes)` (R243): ProgramTooLarge above 3584 bytes and nothing is written, else the bytes from 0x200. -/
def loadProgram (bytes : List Byte) (s : State) : Result :=
  if Config.progMax < bytes.length then .fault (.programTooLarge bytes.length)
  else .next (writeBytes s Config.progBase bytes)

/-- The instruction the next cycle executes, with STRICT_DECODE given: none in a stopped or waiting machine, or where
fetch or decode fails. -/
def State.nextInstrWith (strict : Bool) (s : State) : Option Instr :=
  if s.err.isSome || s.wait then none else (s.fetchInstrWith strict).toOption

/-- The instruction the next cycle executes. -/
def State.nextInstr (s : State) : Option Instr := s.nextInstrWith strictDecode

/-- `cycle(rand)` of R86 with the open parameters and the host's random byte, which only CXKK reads. -/
def cycleWith (p : Params) (rand : Byte) (s : State) : Result :=
  match s.nextInstrWith p.strictDecode with
  | some (.rnd x kk) => rndWith rand x kk s
  | _ => stepWith p s

/-- `cycle(rand)` of R86. -/
def cycle (rand : Byte) (s : State) : Result := cycleWith .spec rand s

/-! What the host reads (R225). -/

/-- `readPixel(x, y)` (R225). -/
def readPixel (x y : Nat) (s : State) : Bool := getPixel s.fb x y

/-- What the host is told of a fatal error (R201): its kind, its code, the `pc` of the cycle that raised it and, for
InvalidOpcode, the word; all read back from the unchanged state. -/
structure Report where
  kind : FatalError
  code : Nat
  pc : Word
  word : Option Word
  deriving DecidableEq, Repr

/-- The report of the latched error, none when `ERR` is None, with the error codes given. -/
def State.reportWith (code : FatalError → Nat) (s : State) : Option Report :=
  s.err.map fun e => ⟨e, code e, s.pc, if e = .invalidOpcode then s.fetch.toOption else none⟩

/-! A session: the machine under its host. -/

/-- The launch window (R245), which is the host's history and no state of the CORE (R37). -/
inductive Window where
  /-- After reset, before the first cycle, no program loaded. -/
  | empty
  /-- In the window, one program loaded with success. -/
  | loaded
  /-- From the first cycle on. -/
  | closed
  deriving DecidableEq, Repr

/-- The machine and where its host is in the launch (R229, R245). -/
structure Session where
  state : State
  window : Window
  deriving DecidableEq, Repr

/-- The transactions that change the machine (R220). -/
inductive Transaction where
  | reset
  | loadProgram (bytes : List Byte)
  | cycle (rand : Byte)
  | tickTimers
  | setKey (index : Nat) (pressed : Bool)
  | consumeRedraw
  deriving DecidableEq, Repr

/-- What a transaction answers its host. -/
inductive Answer where
  /-- Done, nothing to tell. -/
  | done
  /-- The fatal error a cycle raised or goes on reporting (R203, R204). -/
  | error (report : Report)
  /-- The recoverable load error with its code and the length (R201, R209). -/
  | programTooLarge (code length : Nat)
  deriving DecidableEq, Repr

/-- A result of the machine as the session's, with its answer. -/
def Session.after (w : Window) (answer : State → Answer) :
    Result → Host.Outcome (Session × Answer) Fault Refusal
  | .next t => .next (⟨t, w⟩, answer t)
  | .fault f => .fault f
  | .refused r => .refused r

/-- The answer to a cycle: the error in `ERR`, if any. -/
def cycleAnswer (code : FatalError → Nat) (t : State) : Answer :=
  match t.reportWith code with
  | some r => .error r
  | none => .done

/-- The session after loadProgram in the launch window: a program that fits is written and the window remembers it, at
most once; one that is too large leaves everything as it was, any number of times (R243, R245). -/
def Session.afterLoad (tooLargeCode : Nat) (z : Session) : Result → Host.Outcome (Session × Answer) Fault Refusal
  | .next t => if z.window = .loaded then .refused .loadOutsideLaunchWindow else .next (⟨t, .loaded⟩, .done)
  | .fault (.programTooLarge n) => .next (z, .programTooLarge tooLargeCode n)
  | .refused r => .refused r

/-- One transaction (R220) of the machine with the parameters `p`: atomic, in the order the host chooses. loadProgram has success at most once and only in
the launch window (R229, R245); setKey takes an index in 0 to 15 (R223). -/
def transactWith (p : Params) (x : Transaction) (z : Session) : Host.Outcome (Session × Answer) Fault Refusal :=
  match x with
  | .reset => .next (⟨State.resetWith p.font, .empty⟩, .done)
  | .loadProgram bytes =>
    if z.window = .closed then .refused .loadOutsideLaunchWindow
    else z.afterLoad p.tooLargeCode (loadProgram bytes z.state)
  | .cycle rand => Session.after .closed (cycleAnswer p.code) (cycleWith p rand z.state)
  | .tickTimers => .next ({ z with state := tickTimers z.state }, .done)
  | .setKey index pressed =>
    if index < 16 then .next ({ z with state := setKey (BitVec.ofNat 4 index) pressed z.state }, .done)
    else .refused (.keyIndexOutOfRange index)
  | .consumeRedraw => .next ({ z with state := consumeRedraw z.state }, .done)

/-- One transaction (R220). -/
def transact (x : Transaction) (z : Session) : Host.Outcome (Session × Answer) Fault Refusal := transactWith .spec x z

/-- A run (R246) of the machine with the parameters `p`: the transactions of the list in order; its last session, or the first refusal. -/
def Session.runWith (p : Params) (z : Session) : List Transaction → Host.Outcome Session Fault Refusal
  | [] => .next z
  | x :: xs =>
    match transactWith p x z with
    | .next (z', _) => Session.runWith p z' xs
    | .fault f => .fault f
    | .refused r => .refused r

/-- A run (R246). -/
def Session.run (z : Session) (xs : List Transaction) : Host.Outcome Session Fault Refusal := z.runWith .spec xs

end Sys2Proof.Machine
end

