-- ==== Sys2Proof/Safety.lean ====
section
/-! DEFINITION. The terms claims are stated in: frames, the cause of an error, stopped, waiting and settled machines, the
launch state, the invariant that every step keeps. -/

namespace Sys2Proof.Machine

/-- Every word that matches the mask and the pattern of a row of R75 decodes to the instruction `f op`. -/
def SpelledBy (mask pattern : Word) (f : Word → Instr) : Prop :=
  ∀ op : Word, op &&& mask = pattern → decode op = .ok (f op)

/-! Frames: what an instruction leaves unchanged. -/

/-- The state besides the general registers, part by part. -/
inductive Part where
  | i | pc | stack | sp | dt | st | key | fb | redraw | wait | waitX | err | mem | draws
  deriving DecidableEq, Repr

/-- The part is the same in both states: every slot of the stack, every key, every pixel, every byte of memory. -/
def Part.same : Part → State → State → Prop
  | .i, s, t => t.i = s.i
  | .pc, s, t => t.pc = s.pc
  | .stack, s, t => t.stack = s.stack
  | .sp, s, t => t.sp = s.sp
  | .dt, s, t => t.dt = s.dt
  | .st, s, t => t.st = s.st
  | .key, s, t => t.key = s.key
  | .fb, s, t => t.fb = s.fb
  | .redraw, s, t => t.redraw = s.redraw
  | .wait, s, t => t.wait = s.wait
  | .waitX, s, t => t.waitX = s.waitX
  | .err, s, t => t.err = s.err
  | .mem, s, t => ∀ a : Addr, t.memRead a = s.memRead a
  | .draws, s, t => t.draws = s.draws

/-- From `s` to `t` nothing changes but the registers `dests` and the parts `parts`. -/
def Frame (dests : List Nibble) (parts : List Part) (s t : State) : Prop :=
  (∀ r : Nibble, r ∉ dests → t.reg r = s.reg r) ∧ ∀ p : Part, p ∉ parts → p.same s t

/-- The general registers an instruction may write (the last column of R22). -/
def destsOf : Instr → List Nibble
  | .ldImm x _ | .addImm x _ | .ldReg x _ | .orReg x _ | .andReg x _ | .xorReg x _ | .rnd x _ | .ldVxDT x | .ldVxK x =>
    [x]
  | .addReg x _ | .sub x _ | .shr x _ | .subn x _ | .shl x _ => [vf, x]
  | .drw _ _ _ => [vf]
  | .loadRegs x => (List.range (x.toNat + 1)).map (BitVec.ofNat 4)
  | .cls | .ret | .jp _ | .call _ | .seImm _ _ | .sneImm _ _ | .seReg _ _ | .sneReg _ _ | .ldI _ | .jpV0 _ | .skp _
  | .sknp _ | .ldDTVx _ | .ldSTVx _ | .addI _ | .ldF _ | .ldB _ | .storeRegs _ => []

/-! The modes of the machine. -/

/-- Stopped by a fatal error (R204). -/
def State.Stopped (s : State) : Prop := s.err ≠ none

/-- Ready to fetch: neither stopped nor in AwaitingKey (R86). -/
def State.Running (s : State) : Prop := s.err = none ∧ s.wait = false

/-- In AwaitingKey (R32). -/
def State.Waiting (s : State) : Prop := s.err = none ∧ s.wait = true

/-- The error the next cycle of a running machine raises, none if it raises none: the checks in the order of R211,
each as R205 to R208 give it. -/
def State.cause (s : State) : Option FatalError :=
  match s.fetchInstr with
  | .error e => some e
  | .ok (.call _) => if s.sp = 15 then some .stackOverflow else none
  | .ok .ret => if s.sp = 0 then some .stackUnderflow else none
  | .ok _ => none

/-- A safe step: the machine is not stopped before it and raises no error in it. -/
def State.SafeStep (s : State) : Prop := ∃ t, step s = .next t ∧ s.err = none ∧ t.err = none

/-- Settled (R247 (b)): running, and the instruction at `pc` is a jump to itself. -/
def State.Settled (s : State) : Prop := s.Running ∧ ∃ nnn, s.fetchInstr = .ok (.jp nnn) ∧ zextAddr nnn = s.pc

/-- The three ends of a run that R247 defines, but for the host's own (c). -/
inductive RunEnd where
  /-- (a): stopped by an error; never a successful end. -/
  | stopped (e : FatalError)
  /-- (b): settled on a jump to itself. -/
  | settled
  deriving DecidableEq, Repr

/-- The end a state is, none while the run goes on (R247). -/
def State.runEnd (s : State) : Option RunEnd :=
  match s.err with
  | some e => some (.stopped e)
  | none =>
    if s.wait then none
    else
      match s.fetchInstr with
      | .ok (.jp nnn) => if zextAddr nnn = s.pc then some .settled else none
      | _ => none

/-- The launch premises of R245 for a program: the reset state with the program's bytes from 0x200, some keys perhaps
already pressed. -/
def Launch (bytes : List Byte) (s : State) : Prop :=
  bytes.length ≤ Config.progMax ∧
    ∃ key, s = { writeBytes State.reset Config.progBase bytes with key := key }

/-! The invariant. -/

/-- Why a machine waits (R32): it shows no error, and the instruction at `pc` is the FX0A whose X is `WAITX`. -/
def State.WaitsOnItsFX0A (s : State) : Prop :=
  s.wait = true → s.err = none ∧ s.fetchInstr = .ok (.ldVxK s.waitX)

/-- Why a machine is stopped (R34): it does not wait, and what raised the error is still there. -/
def State.StoppedByItsCause (s : State) : Prop :=
  ∀ e, s.err = some e → s.wait = false ∧ s.cause = some e

/-- What holds of every state a run reaches: canonical memory, `pc` at most 0x10FE (R25), return addresses at most 0xFFE
and slot 0 never written (R27, R100), and the two reasons above. -/
structure State.Inv (s : State) : Prop where
  mem_wf : s.mem.wf
  pc_le : s.pc.toNat ≤ 0x10FE
  slots_le : ∀ n : Nibble, (s.slot n).toNat ≤ 0xFFE
  slot_zero : s.slot 0 = 0
  waits : s.WaitsOnItsFX0A
  stopped : s.StoppedByItsCause

/-- What holds of every session: its machine meets the invariant, and in the launch window it runs. -/
def Session.Inv (z : Session) : Prop :=
  z.state.Inv ∧ (z.window ≠ .closed → z.state.Running)

end Sys2Proof.Machine
end

