-- ==== Sys2Proof/Certificates/Slice0/Obligations.lean ====
section
/-! DEFINITION. The statements for the provers, from the numbered rules of spec/. Where a statement rests on a decision of
spec/92_eei_decisions.md or on a log entry of this model, its docstring names it. The statements about `exec`, `step` and
`transact` have the open parameters of R6 at the spec's values; where a parameter matters a clause about `execWith`,
`stepWith`, `transactWith` or `decodeWith` says what any other value gives. Frames rest on the closed-world
reading R7 (decision D1, notes/assumptions/12.md). -/

open Sys2Proof Sys2Proof.Machine

/-! Encoding. -/

/-- Decoding the two bytes of an encoded instruction gives it back, whatever its operands: no field of R71 and R72 is
dropped. -/
def Obligations.DecodeEncodeRoundTrip : Prop :=
  ∀ i : Instr, i.WellFormed →
    decode (encode i) = .ok i ∧ decodeBytes (hiByte (encode i)) (loByte (encode i)) = .ok i

/-- Each valid word has one meaning: encoding what it decodes to gives the word back, the ignored Y of 8XY6 and 8XYE
included. It rests on strict decode, decision D3, notes/assumptions/5.md: without it 0x512F would mean what 0x5120 does. -/
def Obligations.EncodeDecodeRoundTrip : Prop :=
  ∀ (op : Word) (i : Instr), decode op = .ok i → encode i = op ∧ i.row.spells op = true

/-- A word decodes exactly when some row of the opcode map spells it, it is refused as InvalidOpcode exactly when none
does, and no two rows spell one word. -/
def Obligations.DecodesExactlyTheMappedWords : Prop :=
  ∀ op : Word,
    ((∃ i, decode op = .ok i) ↔ wordWellFormed op = true) ∧
    (decode op = .error (.invalidOpcode op) ↔ wordWellFormed op = false) ∧
    ∀ r ∈ opcodeMap, ∀ r' ∈ opcodeMap, r.spells op = true → r'.spells op = true → r = r'

/-- The invalid words, family by family. The families 0, 5 and 9 are matched strictly: decision D3,
notes/assumptions/5.md. With the parameter STRICT_DECODE at no, the low byte alone selects in family 0 and the low nibble
plays no part in families 5 and 9; every word the strict decoder accepts means the same. -/
def Obligations.InvalidWordsByFamily : Prop :=
  ∀ op : Word,
    (decode op = .error (.invalidOpcode op) ↔
      (fieldP op = 0x0 ∧ op ≠ 0x00E0 ∧ op ≠ 0x00EE) ∨
      (fieldP op = 0x5 ∧ fieldN op ≠ 0x0) ∨
      (fieldP op = 0x8 ∧ fieldN op ∈ [0x8, 0x9, 0xA, 0xB, 0xC, 0xD, 0xF]) ∨
      (fieldP op = 0x9 ∧ fieldN op ≠ 0x0) ∨
      (fieldP op = 0xE ∧ fieldKK op ∉ [0x9E, 0xA1]) ∨
      (fieldP op = 0xF ∧ fieldKK op ∉ [0x07, 0x0A, 0x15, 0x18, 0x1E, 0x29, 0x33, 0x55, 0x65])) ∧
    (decodeWith false op = .error (.invalidOpcode op) ↔
      (fieldP op = 0x0 ∧ fieldKK op ∉ [0xE0, 0xEE]) ∨
      (fieldP op = 0x8 ∧ fieldN op ∈ [0x8, 0x9, 0xA, 0xB, 0xC, 0xD, 0xF]) ∨
      (fieldP op = 0xE ∧ fieldKK op ∉ [0x9E, 0xA1]) ∨
      (fieldP op = 0xF ∧ fieldKK op ∉ [0x07, 0x0A, 0x15, 0x18, 0x1E, 0x29, 0x33, 0x55, 0x65])) ∧
    (∀ i, decode op = .ok i → decodeWith false op = .ok i) ∧
    (fieldP op = 0x0 → fieldKK op = 0xE0 → decodeWith false op = .ok .cls) ∧
    (fieldP op = 0x0 → fieldKK op = 0xEE → decodeWith false op = .ok .ret) ∧
    (fieldP op = 0x5 → decodeWith false op = .ok (.seReg (fieldX op) (fieldY op))) ∧
    (fieldP op = 0x9 → decodeWith false op = .ok (.sneReg (fieldX op) (fieldY op)))

/-- The words of the encoding vectors E1 to E8 and three invalid ones; that 0x5121 is invalid is strict decode, decision
D3, notes/assumptions/5.md. -/
def Obligations.SpecWordsDecode : Prop :=
  decode 0x6A05 = .ok (.ldImm 0xA 0x05) ∧ decode 0xD125 = .ok (.drw 0x1 0x2 0x5) ∧
  decode 0x8AF0 = .ok (.ldReg 0xA 0xF) ∧ decode 0x2300 = .ok (.call 0x300) ∧
  decode 0xF10A = .ok (.ldVxK 0x1) ∧ decode 0xEE9E = .ok (.skp 0xE) ∧
  decode 0x8126 = .ok (.shr 0x1 0x2) ∧ decode 0xBFFF = .ok (.jpV0 0xFFF) ∧
  decode 0x0000 = .error (.invalidOpcode 0x0000) ∧ decode 0x5121 = .error (.invalidOpcode 0x5121) ∧
  decode 0xF10B = .error (.invalidOpcode 0xF10B)

/-! Fetch, the cycle, errors. -/

/-- R85: fetch is `(hi << 8) | lo` of the bytes at `pc` and `pc + 1`, and OutOfBounds when one of them is beyond the
memory; it does not wrap, and being a function of the state it changes none. -/
def Obligations.FetchIsBigEndianAndBounded : Prop :=
  ∀ s : State,
    (0xFFE < s.pc.toNat → s.fetch = .error .outOfBounds) ∧
    (s.pc.toNat ≤ 0xFFE → ∃ op, s.fetch = .ok op ∧
      op.toNat = (s.memRead (BitVec.ofNat 12 s.pc.toNat)).toNat * 256 +
        (s.memRead (BitVec.ofNat 12 (s.pc.toNat + 1))).toNat)

/-- A running machine whose bytes at `pc` decode to `i` steps as `exec i`, with nothing around it. -/
def Obligations.StepRunsTheDecodedInstruction : Prop :=
  ∀ (s : State) (i : Instr), s.err = none → s.wait = false → s.pc.toNat ≤ 0xFFE → i.WellFormed →
    decodeBytes (s.memRead (BitVec.ofNat 12 s.pc.toNat)) (s.memRead (BitVec.ofNat 12 (s.pc.toNat + 1))) = .ok i →
    step s = exec i s

/-- Every instruction in every state, and every step, answers a next state: no data access, coordinate, key index or
operand stops the machine, and a run-time error is a next state with the latch set (notes/assumptions/10.md). -/
def Obligations.EveryStepAnswersNext : Prop :=
  (∀ (i : Instr) (s : State), ∃ t, exec i s = .next t) ∧ ∀ s : State, ∃ t, step s = .next t

/-- A running machine raises exactly the error that fetch, decode and the instruction's own check give, in that order,
and raising changes nothing but the latch. The latch is decision D5, notes/assumptions/10.md; the limits of SP are
decision D4, notes/assumptions/7.md. -/
def Obligations.RaisesExactlyItsCause : Prop :=
  ∀ s : State, s.Running →
    (∀ e, s.cause = some e → step s = .next { s with err := some e }) ∧
    (s.cause = none → ∃ t, step s = .next t ∧ t.err = none)

/-- The order of the checks of a cycle: OutOfBounds before InvalidOpcode before the instruction's own error. -/
def Obligations.ErrorChecksInOrder : Prop :=
  ∀ s : State, s.err = none → s.wait = false →
    (0xFFE < s.pc.toNat → step s = .next { s with err := some .outOfBounds }) ∧
    ∀ op, s.fetch = .ok op →
      (decode op = .error (.invalidOpcode op) → step s = .next { s with err := some .invalidOpcode }) ∧
      (∀ nnn, decode op = .ok (.call nnn) → s.sp = 15 → step s = .next { s with err := some .stackOverflow }) ∧
      (decode op = .ok .ret → s.sp = 0 → step s = .next { s with err := some .stackUnderflow })

/-- Once ERR is set a cycle changes nothing, whatever the random byte, and no transaction but reset clears it, whatever the
open parameters (decision D5, notes/assumptions/10.md). A cycle that ends with ERR set, the one that raises it and every
later one, reports the kind, its code, the `pc` and for InvalidOpcode the word; the numbers are decision D6,
notes/assumptions/14.md. -/
def Obligations.OnlyResetClearsAnError : Prop :=
  (∀ (s : State) (rand : Byte), s.err ≠ none →
    step s = .next s ∧ cycle rand s = .next s ∧ ∀ p, cycleWith p rand s = .next s) ∧
  (∀ (p : Params) (x : Transaction) (z : Session) (e : FatalError), z.state.err = some e → x ≠ .reset →
    ∀ z' a, transactWith p x z = .next (z', a) → z'.state.err = some e) ∧
  ∀ (rand : Byte) (z z' : Session) (a : Answer), transact (.cycle rand) z = .next (z', a) →
    (z'.state.err = none → a = .done ∧ z'.state.errCode = 0) ∧
    ∀ e, z'.state.err = some e → ∃ r, a = .error r ∧ r.kind = e ∧ r.pc = z.state.pc ∧ z'.state.errCode = r.code ∧
      (e = .outOfBounds → r.code = 1) ∧ (e = .invalidOpcode → r.code = 2) ∧
      (e = .stackOverflow → r.code = 3) ∧ (e = .stackUnderflow → r.code = 4) ∧
      (e = .invalidOpcode → ∀ op, z.state.fetch = .ok op → r.word = some op) ∧
      (e ≠ .invalidOpcode → r.word = none)

/-! Invariants. -/

/-- Every step from a state that meets the invariant answers a state that meets it: canonical memory, `pc` at most
0x10FE, return addresses at most 0xFFE, slot 0 never written, a wait belongs to the FX0A at `pc`, and an error to its
cause. -/
def Obligations.StepKeepsTheInvariant : Prop :=
  ∀ s t : State, s.Inv → step s = .next t → t.Inv

/-- The reset state meets the invariant. -/
def Obligations.ResetMeetsTheInvariant : Prop := State.reset.Inv

/-- Every transaction of the host, reset and loadProgram included, keeps the invariant of sessions. -/
def Obligations.TransactionsKeepTheInvariant : Prop :=
  ∀ (x : Transaction) (z z' : Session) (a : Answer), z.Inv → transact x z = .next (z', a) → z'.Inv

/-- A machine without WAIT that fetches the same FX0A again on every cycle has the same runs (R32; decision D7,
notes/assumptions/9.md). The invariant excludes waiting states with no FX0A at `pc`, which no run reaches. -/
def Obligations.WaitingIsRefetching : Prop :=
  ∀ s : State, s.Inv → s.wait = true → step s = step { s with wait := false }

/-- The latch adds no behaviour (R34): without it the machine would raise the same error again (decision D5,
notes/assumptions/10.md). The invariant excludes stopped states whose error has no cause, which no run reaches. -/
def Obligations.LatchAddsNoBehaviour : Prop :=
  ∀ s : State, s.Inv → s.err ≠ none → step { s with err := none } = .next s

/-- A cycle in AwaitingKey: nothing changes while no key is pressed; with a key pressed the lowest one goes to the
register WAITX, `pc` moves on and the wait ends (decision D7, notes/assumptions/3.md and 9.md). With another KEYSEL it is
the pressed key of that selection, and all else is the same. -/
def Obligations.WaitingCyclePollsTheKeys : Prop :=
  ∀ s : State, s.err = none → s.wait = true →
    ((∀ k : Nibble, s.key[k.toNat]'(nibble_lt k) = false) → step s = .next s ∧ ∀ p, stepWith p s = .next s) ∧
    (∀ k : Nibble, s.key[k.toNat]'(nibble_lt k) = true → (∀ j : Nibble, j < k → s.key[j.toNat]'(nibble_lt j) = false) →
      ∃ t, step s = .next t ∧ (t.reg s.waitX).toNat = k.toNat ∧ t.pc = s.pc + 2 ∧ t.wait = false ∧
        Frame [s.waitX] [.pc, .wait] s t) ∧
    ∀ (p : Params) (k : Nibble), p.Lawful → s.key[k.toNat]'(nibble_lt k) = true →
      ∃ (t : State) (j : Nibble), stepWith p s = .next t ∧ j = p.keySel s.key ∧ s.key[j.toNat]'(nibble_lt j) = true ∧
        (t.reg s.waitX).toNat = j.toNat ∧ t.pc = s.pc + 2 ∧ t.wait = false ∧ Frame [s.waitX] [.pc, .wait] s t

/-- A machine settled on a jump to itself stays as it is, cycle after cycle, and `runEnd` says so. -/
def Obligations.SettledMachineStays : Prop :=
  ∀ s : State, s.Settled → step s = .next s ∧ s.runEnd = some .settled ∧ s.SafeStep

/-! Control transfer. -/

/-- R101: `pc` takes NNN, no register and no error changes; a jump to itself changes nothing at all, and after a jump to
0xFFF the fetch is OutOfBounds. -/
def Obligations.JpSetsPc : Prop :=
  SpelledBy 0xF000 0x1000 (fun op => .jp (fieldNNN op)) ∧
  ∀ (nnn : Addr) (s : State), ∃ t, exec (.jp nnn) s = .next t ∧ t.pc.toNat = nnn.toNat ∧
    (∀ r, t.reg r = s.reg r) ∧ t.err = s.err ∧ (s.pc.toNat = nnn.toNat → t = s) ∧
    (nnn.toNat = 0xFFF → t.fetch = .error .outOfBounds)

/-- 2NNN: below 15 levels the call's own address is pushed with a pre-increment and `pc` takes NNN; at 15 it is
StackOverflow and nothing else (decision D4, notes/assumptions/7.md). -/
def Obligations.CallPushesItsOwnAddress : Prop :=
  SpelledBy 0xF000 0x2000 (fun op => .call (fieldNNN op)) ∧
  ∀ (nnn : Addr) (s : State),
    (s.sp ≠ 15 → ∃ t, exec (.call nnn) s = .next t ∧ t.sp.toNat = s.sp.toNat + 1 ∧ t.slot t.sp = s.pc ∧
      (∀ n, n ≠ t.sp → t.slot n = s.slot n) ∧ t.pc.toNat = nnn.toNat) ∧
    (s.sp = 15 → exec (.call nnn) s = .next { s with err := some .stackOverflow })

/-- 00EE: above level 0 `pc` takes the top slot plus 2 and SP goes down, the slot keeps its value; at 0 it is
StackUnderflow and nothing else (decision D4, notes/assumptions/7.md). -/
def Obligations.RetReturnsAfterTheCall : Prop :=
  SpelledBy 0xFFFF 0x00EE (fun _ => .ret) ∧
  ∀ s : State,
    (s.sp ≠ 0 → ∃ t, exec .ret s = .next t ∧ t.pc = s.slot s.sp + 2 ∧ t.sp.toNat + 1 = s.sp.toNat ∧
      t.stack = s.stack) ∧
    (s.sp = 0 → exec .ret s = .next { s with err := some .stackUnderflow })

/-- A return undoes a call (scenario S10, read as conflict C4 says): from any state after the call with its stack and SP,
`pc` is the call's address plus 2 and SP is as before the call. -/
def Obligations.RetUndoesCall : Prop :=
  ∀ (nnn : Addr) (s t u : State), s.sp ≠ 15 → exec (.call nnn) s = .next t → u.stack = t.stack → u.sp = t.sp →
    ∃ w, exec .ret u = .next w ∧ w.pc = s.pc + 2 ∧ w.sp = s.sp ∧ w.err = u.err

/-- BNNN: the sum is not reduced modulo 4096 (decision D27, notes/assumptions/15.md), and a sum above 0xFFE makes the
next cycle of a running machine raise OutOfBounds. -/
def Obligations.JpV0AddsV0 : Prop :=
  SpelledBy 0xF000 0xB000 (fun op => .jpV0 (fieldNNN op)) ∧
  ∀ (nnn : Addr) (s : State), ∃ t, exec (.jpV0 nnn) s = .next t ∧
    t.pc.toNat = nnn.toNat + (s.reg 0).toNat ∧ t.reg 0 = s.reg 0 ∧
    (s.Running → 0xFFE < nnn.toNat + (s.reg 0).toNat → step t = .next { t with err := some .outOfBounds })

/-! Skips. -/

/-- R110 and R111: 3XKK skips exactly where 4XKK does not. -/
def Obligations.ImmediateSkips : Prop :=
  SpelledBy 0xF000 0x3000 (fun op => .seImm (fieldX op) (fieldKK op)) ∧
  SpelledBy 0xF000 0x4000 (fun op => .sneImm (fieldX op) (fieldKK op)) ∧
  ∀ (x : Nibble) (kk : Byte) (s : State), ∃ t u,
    exec (.seImm x kk) s = .next t ∧ exec (.sneImm x kk) s = .next u ∧
    (s.reg x = kk → t.pc = s.pc + 4 ∧ u.pc = s.pc + 2) ∧
    (s.reg x ≠ kk → t.pc = s.pc + 2 ∧ u.pc = s.pc + 4) ∧
    t.reg vf = s.reg vf ∧ u.reg vf = s.reg vf ∧ t.err = s.err ∧ u.err = s.err

/-- 5XY0 and 9XY0, exact complements; with a low nibble other than 0 their words are invalid (decision D3,
notes/assumptions/5.md). -/
def Obligations.RegisterSkips : Prop :=
  SpelledBy 0xF00F 0x5000 (fun op => .seReg (fieldX op) (fieldY op)) ∧
  SpelledBy 0xF00F 0x9000 (fun op => .sneReg (fieldX op) (fieldY op)) ∧
  (∀ op, (fieldP op = 0x5 ∨ fieldP op = 0x9) → fieldN op ≠ 0 → decode op = .error (.invalidOpcode op)) ∧
  ∀ (x y : Nibble) (s : State), ∃ t u,
    exec (.seReg x y) s = .next t ∧ exec (.sneReg x y) s = .next u ∧
    (s.reg x = s.reg y → t.pc = s.pc + 4 ∧ u.pc = s.pc + 2) ∧
    (s.reg x ≠ s.reg y → t.pc = s.pc + 2 ∧ u.pc = s.pc + 4)

/-- EX9E and EXA1: the key is the low nibble of VX (decision D8, notes/assumptions/13.md). -/
def Obligations.KeySkips : Prop :=
  SpelledBy 0xF0FF 0xE09E (fun op => .skp (fieldX op)) ∧
  SpelledBy 0xF0FF 0xE0A1 (fun op => .sknp (fieldX op)) ∧
  ∀ (x k : Nibble) (s : State), k.toNat = (s.reg x).toNat % 16 → ∃ t u,
    exec (.skp x) s = .next t ∧ exec (.sknp x) s = .next u ∧
    (s.key[k.toNat]'(nibble_lt k) = true → t.pc = s.pc + 4 ∧ u.pc = s.pc + 2) ∧
    (s.key[k.toNat]'(nibble_lt k) = false → t.pc = s.pc + 2 ∧ u.pc = s.pc + 4)

/-! Registers and immediates. -/

/-- R120: VF is written only as the plain destination. -/
def Obligations.LdImmLoads : Prop :=
  SpelledBy 0xF000 0x6000 (fun op => .ldImm (fieldX op) (fieldKK op)) ∧
  ∀ (x : Nibble) (kk : Byte) (s : State), ∃ t, exec (.ldImm x kk) s = .next t ∧
    t.reg x = kk ∧ t.pc = s.pc + 2 ∧ (x ≠ vf → t.reg vf = s.reg vf) ∧ t.err = s.err

/-- R121: the sum modulo 256; VF is no flag of it, also when the sum exceeds 255. -/
def Obligations.AddImmAddsWithoutFlag : Prop :=
  SpelledBy 0xF000 0x7000 (fun op => .addImm (fieldX op) (fieldKK op)) ∧
  ∀ (x : Nibble) (kk : Byte) (s : State), ∃ t, exec (.addImm x kk) s = .next t ∧
    (t.reg x).toNat = ((s.reg x).toNat + kk.toNat) % 256 ∧ t.pc = s.pc + 2 ∧ (x ≠ vf → t.reg vf = s.reg vf) ∧
    t.err = s.err

/-- CXKK with the free byte of decision D9 (notes/assumptions/6.md): whatever the byte, the bits where KK is 0 are 0;
with the byte of the transaction `cycle(rand)` the register is `rand & KK`; every execution takes a draw of its own. -/
def Obligations.RndMasksAFreeByte : Prop :=
  SpelledBy 0xF000 0xC000 (fun op => .rnd (fieldX op) (fieldKK op)) ∧
  (∀ (x : Nibble) (kk : Byte) (s : State), ∃ t, exec (.rnd x kk) s = .next t ∧
    t.reg x &&& ~~~kk = 0 ∧ (t.reg x).toNat ≤ kk.toNat ∧ t.pc = s.pc + 2 ∧ t.draws = s.draws + 1) ∧
  ∀ (x : Nibble) (kk rand : Byte) (s : State), s.Running → s.fetchInstr = .ok (.rnd x kk) →
    ∃ t, cycle rand s = .next t ∧ t.reg x = rand &&& kk ∧ t.pc = s.pc + 2 ∧ Frame [x] [.pc, .draws] s t

/-- 8XY0 to 8XY3: the copy, and the logic bit by bit; VF is not written but as the plain destination (closed world:
decision D1, notes/assumptions/12.md). -/
def Obligations.CopyAndLogicWriteNoFlag : Prop :=
  SpelledBy 0xF00F 0x8000 (fun op => .ldReg (fieldX op) (fieldY op)) ∧
  SpelledBy 0xF00F 0x8001 (fun op => .orReg (fieldX op) (fieldY op)) ∧
  SpelledBy 0xF00F 0x8002 (fun op => .andReg (fieldX op) (fieldY op)) ∧
  SpelledBy 0xF00F 0x8003 (fun op => .xorReg (fieldX op) (fieldY op)) ∧
  ∀ (x y : Nibble) (s : State), ∃ c t u w,
    exec (.ldReg x y) s = .next c ∧ exec (.orReg x y) s = .next t ∧
    exec (.andReg x y) s = .next u ∧ exec (.xorReg x y) s = .next w ∧
    c.reg x = s.reg y ∧
    (∀ k < 8, (t.reg x).getLsbD k = ((s.reg x).getLsbD k || (s.reg y).getLsbD k) ∧
      (u.reg x).getLsbD k = ((s.reg x).getLsbD k && (s.reg y).getLsbD k) ∧
      (w.reg x).getLsbD k = ((s.reg x).getLsbD k ^^ (s.reg y).getLsbD k)) ∧
    c.pc = s.pc + 2 ∧ t.pc = s.pc + 2 ∧ u.pc = s.pc + 2 ∧ w.pc = s.pc + 2 ∧
    (x ≠ vf → c.reg vf = s.reg vf ∧ t.reg vf = s.reg vf ∧ u.reg vf = s.reg vf ∧ w.reg vf = s.reg vf)

/-- 8XY4: the sum is of the old registers, VF included; with X = F the result overwrites the carry, which is the order of
writes of decision D2 (notes/assumptions/11.md). -/
def Obligations.AddRegSetsCarry : Prop :=
  SpelledBy 0xF00F 0x8004 (fun op => .addReg (fieldX op) (fieldY op)) ∧
  ∀ (x y : Nibble) (s : State), ∃ t, exec (.addReg x y) s = .next t ∧
    (t.reg x).toNat = ((s.reg x).toNat + (s.reg y).toNat) % 256 ∧ t.pc = s.pc + 2 ∧
    (x ≠ vf → t.reg vf = if 255 < (s.reg x).toNat + (s.reg y).toNat then 1 else 0) ∧ t.err = s.err

/-- 8XY5, every case of its operands. The order of the writes is decision D2 (notes/assumptions/11.md) and the flag 0 on
equal operands is conflict C3 (notes/assumptions/4.md); with another SUB_EQ_VF that value is the flag on equal operands
and nothing else differs. -/
def Obligations.SubSetsNoBorrow : Prop :=
  SpelledBy 0xF00F 0x8005 (fun op => .sub (fieldX op) (fieldY op)) ∧
  (∀ (x y : Nibble) (s : State), ∃ t, exec (.sub x y) s = .next t ∧ t.pc = s.pc + 2 ∧
    (x ≠ vf → y ≠ vf →
      (t.reg x).toNat = (256 + (s.reg x).toNat - (s.reg y).toNat) % 256 ∧
      t.reg vf = if (s.reg y).toNat < (s.reg x).toNat then 1 else 0) ∧
    (x ≠ vf → y = vf →
      t.reg vf = (if (s.reg vf).toNat < (s.reg x).toNat then 1 else 0) ∧
      (t.reg x).toNat = (256 + (s.reg x).toNat - (t.reg vf).toNat) % 256) ∧
    (x = vf → y ≠ vf →
      (t.reg vf).toNat =
        (256 + (if (s.reg y).toNat < (s.reg vf).toNat then 1 else 0) - (s.reg y).toNat) % 256) ∧
    (x = vf → y = vf → t.reg vf = 0)) ∧
  ∀ (p : Params) (x y : Nibble) (s : State), ∃ t, execWith p (.sub x y) s = .next t ∧ t.pc = s.pc + 2 ∧
    (s.reg x ≠ s.reg y → exec (.sub x y) s = .next t) ∧
    (s.reg x = s.reg y →
      (x ≠ vf → y ≠ vf → t.reg vf = p.subEqVf ∧ t.reg x = 0) ∧
      (x ≠ vf → y = vf → t.reg vf = p.subEqVf ∧ (t.reg x).toNat = (256 + (s.reg x).toNat - p.subEqVf.toNat) % 256) ∧
      (x = vf → y ≠ vf → (t.reg vf).toNat = (256 + p.subEqVf.toNat - (s.reg y).toNat) % 256) ∧
      (x = vf → y = vf → t.reg vf = 0))

/-- 8XY7, every case of its operands; the same decisions as for 8XY5 (notes/assumptions/4.md and 11.md), and the same of
another SUB_EQ_VF. VY is not written but where it is VF. -/
def Obligations.SubnSetsNoBorrow : Prop :=
  SpelledBy 0xF00F 0x8007 (fun op => .subn (fieldX op) (fieldY op)) ∧
  (∀ (x y : Nibble) (s : State), ∃ t, exec (.subn x y) s = .next t ∧ t.pc = s.pc + 2 ∧
    (x ≠ vf → y ≠ vf →
      (t.reg x).toNat = (256 + (s.reg y).toNat - (s.reg x).toNat) % 256 ∧
      t.reg vf = if (s.reg x).toNat < (s.reg y).toNat then 1 else 0) ∧
    (x ≠ vf → y = vf →
      t.reg vf = (if (s.reg x).toNat < (s.reg vf).toNat then 1 else 0) ∧
      (t.reg x).toNat = (256 + (t.reg vf).toNat - (s.reg x).toNat) % 256) ∧
    (x = vf → y ≠ vf →
      (t.reg vf).toNat =
        (256 + (s.reg y).toNat - (if (s.reg vf).toNat < (s.reg y).toNat then 1 else 0)) % 256) ∧
    (x = vf → y = vf → t.reg vf = 0)) ∧
  ∀ (p : Params) (x y : Nibble) (s : State), ∃ t, execWith p (.subn x y) s = .next t ∧ t.pc = s.pc + 2 ∧
    (s.reg x ≠ s.reg y → exec (.subn x y) s = .next t) ∧
    (s.reg x = s.reg y →
      (x ≠ vf → y ≠ vf → t.reg vf = p.subEqVf ∧ t.reg x = 0) ∧
      (x ≠ vf → y = vf → t.reg vf = p.subEqVf ∧ (t.reg x).toNat = (256 + p.subEqVf.toNat - (s.reg x).toNat) % 256) ∧
      (x = vf → y ≠ vf → (t.reg vf).toNat = (256 + (s.reg y).toNat - p.subEqVf.toNat) % 256) ∧
      (x = vf → y = vf → t.reg vf = 0))

/-- 8XY6 and 8XYE: VX is shifted in place by one, VF takes the bit shifted out, Y plays no part; with X = F the bit is
written first and then shifted itself (decision D2, notes/assumptions/11.md). -/
def Obligations.ShiftsMoveOneBit : Prop :=
  SpelledBy 0xF00F 0x8006 (fun op => .shr (fieldX op) (fieldY op)) ∧
  SpelledBy 0xF00F 0x800E (fun op => .shl (fieldX op) (fieldY op)) ∧
  ∀ (x y y' : Nibble) (s : State), ∃ t u,
    exec (.shr x y) s = .next t ∧ exec (.shl x y) s = .next u ∧
    exec (.shr x y') s = .next t ∧ exec (.shl x y') s = .next u ∧
    t.pc = s.pc + 2 ∧ u.pc = s.pc + 2 ∧
    (x ≠ vf →
      (t.reg x).toNat = (s.reg x).toNat / 2 ∧ (t.reg vf).toNat = (s.reg x).toNat % 2 ∧
      (u.reg x).toNat = (s.reg x).toNat * 2 % 256 ∧ (u.reg vf).toNat = (s.reg x).toNat / 128) ∧
    (x = vf → t.reg vf = 0 ∧ u.reg vf = if 128 ≤ (s.reg vf).toNat then 2 else 0)

/-! The index register and memory. -/

/-- R150 and R152: ANNN puts NNN in `I`; FX29 the address of the glyph of VX's low nibble, and reads no memory for it:
the same `I` whatever the memory holds. -/
def Obligations.IndexLoads : Prop :=
  SpelledBy 0xF000 0xA000 (fun op => .ldI (fieldNNN op)) ∧
  SpelledBy 0xF0FF 0xF029 (fun op => .ldF (fieldX op)) ∧
  (∀ (nnn : Addr) (s : State), ∃ t, exec (.ldI nnn) s = .next t ∧ t.i.toNat = nnn.toNat ∧ t.pc = s.pc + 2 ∧
    t.reg vf = s.reg vf ∧ t.err = s.err) ∧
  ∀ (x : Nibble) (s : State), ∃ t, exec (.ldF x) s = .next t ∧
    t.i.toNat = 5 * ((s.reg x).toNat % 16) ∧ t.pc = s.pc + 2 ∧ t.reg vf = s.reg vf ∧ t.err = s.err ∧
    ∀ m, ∃ u, exec (.ldF x) { s with mem := m } = .next u ∧ u.i = t.i

/-- FX1E: the sum modulo 65536 and no flag (decision D13, notes/assumptions/15.md). -/
def Obligations.AddIAddsModulo65536 : Prop :=
  SpelledBy 0xF0FF 0xF01E (fun op => .addI (fieldX op)) ∧
  ∀ (x : Nibble) (s : State), ∃ t, exec (.addI x) s = .next t ∧
    t.i.toNat = (s.i.toNat + (s.reg x).toNat) % 65536 ∧ t.pc = s.pc + 2 ∧ t.reg vf = s.reg vf

/-- R153: the three digits at EA(0), EA(1), EA(2), each a byte of its own, which recombine to VX; `I`, the registers and
every other byte of memory stay. -/
def Obligations.LdBStoresThreeDigits : Prop :=
  SpelledBy 0xF0FF 0xF033 (fun op => .ldB (fieldX op)) ∧
  ∀ (x : Nibble) (s : State), ∃ t, exec (.ldB x) s = .next t ∧ t.pc = s.pc + 2 ∧
    (t.memRead (s.ea 0)).toNat = (s.reg x).toNat / 100 ∧
    (t.memRead (s.ea 1)).toNat = (s.reg x).toNat / 10 % 10 ∧
    (t.memRead (s.ea 2)).toNat = (s.reg x).toNat % 10 ∧
    100 * (t.memRead (s.ea 0)).toNat + 10 * (t.memRead (s.ea 1)).toNat + (t.memRead (s.ea 2)).toNat =
      (s.reg x).toNat ∧
    t.i = s.i ∧ t.err = s.err ∧ (∀ r, t.reg r = s.reg r) ∧
    ∀ a, a ≠ s.ea 0 → a ≠ s.ea 1 → a ≠ s.ea 2 → t.memRead a = s.memRead a

/-- FX55: V0 to VX, X included, to EA(0) to EA(X), nothing of the registers above VX, the registers unchanged; that `I`
is unchanged too is decision D1 (notes/assumptions/12.md). -/
def Obligations.StoreRegsStoresV0ToVX : Prop :=
  SpelledBy 0xF0FF 0xF055 (fun op => .storeRegs (fieldX op)) ∧
  ∀ (x : Nibble) (s : State), ∃ t, exec (.storeRegs x) s = .next t ∧ t.pc = s.pc + 2 ∧
    (∀ r : Nibble, r ≤ x → t.memRead (s.ea r.toNat) = s.reg r) ∧
    (∀ a, (∀ r : Nibble, r ≤ x → a ≠ s.ea r.toNat) → t.memRead a = s.memRead a) ∧
    t.i = s.i ∧ ∀ r, t.reg r = s.reg r

/-- FX65: EA(0) to EA(X) to V0 to VX, X included, the registers above and memory unchanged; that `I` is unchanged too is
decision D1 (notes/assumptions/12.md). -/
def Obligations.LoadRegsLoadsV0ToVX : Prop :=
  SpelledBy 0xF0FF 0xF065 (fun op => .loadRegs (fieldX op)) ∧
  ∀ (x : Nibble) (s : State), ∃ t, exec (.loadRegs x) s = .next t ∧ t.pc = s.pc + 2 ∧
    (∀ r : Nibble, r ≤ x → t.reg r = s.memRead (s.ea r.toNat)) ∧
    (∀ r : Nibble, x < r → t.reg r = s.reg r) ∧
    t.i = s.i ∧ ∀ a, t.memRead a = s.memRead a

/-- FX55 and then FX65 with the same I and X give the registers V0 to VX back, whatever they were changed to in between
(property S6). -/
def Obligations.StoreThenLoadIsIdentity : Prop :=
  ∀ (x : Nibble) (s t u : State), exec (.storeRegs x) s = .next t → u.mem = t.mem → u.i = t.i →
    ∃ w, exec (.loadRegs x) u = .next w ∧ ∀ r : Nibble, r ≤ x → w.reg r = s.reg r

/-- The address is `I + k` modulo 4096 and only `I` modulo 4096 matters; data accesses never fault, do not change `I`
(decision D1, notes/assumptions/12.md), and wrap at the top, where the fetch faults. -/
def Obligations.DataAddressesWrap : Prop :=
  (∀ (s : State) (k : Nat), (s.ea k).toNat = (s.i.toNat + k) % 4096 ∧
    (s.ea k).toNat = (s.i.toNat + k) % 65536 % 4096) ∧
  (∀ (x y n : Nibble) (s : State) (w : Word), w.toNat % 4096 = s.i.toNat % 4096 →
    ∀ i ∈ [Instr.ldB x, .storeRegs x, .loadRegs x, .drw x y n],
      ∃ t, exec i s = .next t ∧ t.i = s.i ∧ t.err = s.err ∧ exec i { s with i := w } = .next { t with i := w }) ∧
  ∀ s : State, s.pc.toNat = 0xFFF → s.fetch = .error .outOfBounds

/-- A store is seen by every later fetch: in any state with the memory that FX55 or FX33 left, and so in the next cycle, a
fetch at any address reads each of its two bytes as the register or the decimal digit stored there, or as it was before
where nothing was stored. -/
def Obligations.FetchSeesStores : Prop :=
  ∀ (x : Nibble) (s t u : State), u.mem = t.mem → u.pc.toNat ≤ 0xFFE →
    (exec (.storeRegs x) s = .next t → ∃ hi lo, u.fetch = .ok (wordOfBytes hi lo) ∧
      (∀ r : Nibble, r ≤ x → (s.ea r.toNat).toNat = u.pc.toNat → hi = s.reg r) ∧
      (∀ r : Nibble, r ≤ x → (s.ea r.toNat).toNat = u.pc.toNat + 1 → lo = s.reg r) ∧
      ((∀ r : Nibble, r ≤ x → (s.ea r.toNat).toNat ≠ u.pc.toNat) →
        hi = s.memRead (BitVec.ofNat 12 u.pc.toNat)) ∧
      ((∀ r : Nibble, r ≤ x → (s.ea r.toNat).toNat ≠ u.pc.toNat + 1) →
        lo = s.memRead (BitVec.ofNat 12 (u.pc.toNat + 1)))) ∧
    (exec (.ldB x) s = .next t → ∃ hi lo, u.fetch = .ok (wordOfBytes hi lo) ∧
      (∀ k < 3, (s.ea k).toNat = u.pc.toNat → hi.toNat = (s.reg x).toNat / 10 ^ (2 - k) % 10) ∧
      (∀ k < 3, (s.ea k).toNat = u.pc.toNat + 1 → lo.toNat = (s.reg x).toNat / 10 ^ (2 - k) % 10) ∧
      ((∀ k < 3, (s.ea k).toNat ≠ u.pc.toNat) → hi = s.memRead (BitVec.ofNat 12 u.pc.toNat)) ∧
      ((∀ k < 3, (s.ea k).toNat ≠ u.pc.toNat + 1) → lo = s.memRead (BitVec.ofNat 12 (u.pc.toNat + 1))))

/-! Display. -/

/-- R164: every pixel 0 and REDRAW set, also on a clear screen; registers, `I`, memory and timers unchanged. -/
def Obligations.ClsClearsTheScreen : Prop :=
  SpelledBy 0xFFFF 0x00E0 (fun _ => .cls) ∧
  ∀ s : State, ∃ t, exec .cls s = .next t ∧
    (∀ x y, getPixel t.fb x y = false) ∧ t.redraw = true ∧ t.pc = s.pc + 2 ∧
    (∀ r, t.reg r = s.reg r) ∧ t.i = s.i ∧ (∀ a, t.memRead a = s.memRead a) ∧ t.dt = s.dt ∧ t.st = s.st ∧
    t.err = s.err

/-- DXYN: a pixel that bit `7 - dx` of row `dy` falls on takes the XOR with it, every other pixel stays; VF is 1 exactly
when a 1 bit falls on a 1 pixel, else 0; coordinates are the old registers modulo 64 and 32; `N = 0` draws nothing and
still writes VF and REDRAW (decision D18, notes/assumptions/23.md). -/
def Obligations.DrwXorsTheSprite : Prop :=
  SpelledBy 0xF000 0xD000 (fun op => .drw (fieldX op) (fieldY op) (fieldN op)) ∧
  ∀ (x y n : Nibble) (s : State), ∃ t, exec (.drw x y n) s = .next t ∧
    (∀ dx < 8, ∀ dy < n.toNat,
      getPixel t.fb ((s.reg x).toNat + dx) ((s.reg y).toNat + dy) =
        (getPixel s.fb ((s.reg x).toNat + dx) ((s.reg y).toNat + dy) ^^
          (s.memRead (s.ea dy)).getLsbD (7 - dx))) ∧
    (∀ px py, (∀ dx < 8, ∀ dy < n.toNat,
        ¬ (px % 64 = ((s.reg x).toNat + dx) % 64 ∧ py % 32 = ((s.reg y).toNat + dy) % 32)) →
      getPixel t.fb px py = getPixel s.fb px py) ∧
    (t.reg vf = 1 ↔ ∃ dx < 8, ∃ dy < n.toNat,
      getPixel s.fb ((s.reg x).toNat + dx) ((s.reg y).toNat + dy) = true ∧
        (s.memRead (s.ea dy)).getLsbD (7 - dx) = true) ∧
    (t.reg vf = 0 ∨ t.reg vf = 1) ∧ t.redraw = true ∧ t.pc = s.pc + 2

/-- Drawing the same sprite twice restores the grid, and the second call collides exactly when some 1 bit fell on a pixel
that was 0 before the first (45_display.md section 1, property S4). -/
def Obligations.DrawSpriteIsAnInvolution : Prop :=
  ∀ (fb : Framebuffer) (x y : Nat) (rows : List Byte), rows.length ≤ 15 →
    (drawSprite (drawSprite fb x y rows).1 x y rows).1 = fb ∧
    ((drawSprite (drawSprite fb x y rows).1 x y rows).2 = true ↔
      ∃ dx < 8, ∃ dy < rows.length,
        getPixel fb (x + dx) (y + dy) = false ∧ (rows.getD dy 0).getLsbD (7 - dx) = true)

/-! Keys and timers. -/

/-- FX0A in the cycle that fetches it: a pressed key, the lowest, completes it at once; with none the machine enters
AwaitingKey and `pc` stays (decision D7, notes/assumptions/3.md and 9.md). With another KEYSEL it is the pressed key of
that selection, and with no key pressed the machine waits the same. -/
def Obligations.LdVxKTakesTheLowestKeyOrWaits : Prop :=
  SpelledBy 0xF0FF 0xF00A (fun op => .ldVxK (fieldX op)) ∧
  ∀ (x : Nibble) (s : State),
    ((∀ k : Nibble, s.key[k.toNat]'(nibble_lt k) = false) →
      exec (.ldVxK x) s = .next { s with wait := true, waitX := x } ∧
      ∀ p, execWith p (.ldVxK x) s = .next { s with wait := true, waitX := x }) ∧
    (∀ k : Nibble, s.key[k.toNat]'(nibble_lt k) = true → (∀ j : Nibble, j < k → s.key[j.toNat]'(nibble_lt j) = false) →
      ∃ t, exec (.ldVxK x) s = .next t ∧ (t.reg x).toNat = k.toNat ∧ t.pc = s.pc + 2 ∧ t.wait = s.wait) ∧
    ∀ (p : Params) (k : Nibble), p.Lawful → s.key[k.toNat]'(nibble_lt k) = true →
      ∃ (t : State) (j : Nibble), execWith p (.ldVxK x) s = .next t ∧ j = p.keySel s.key ∧
        s.key[j.toNat]'(nibble_lt j) = true ∧ (t.reg x).toNat = j.toNat ∧ t.pc = s.pc + 2 ∧ t.wait = s.wait

/-- FX07, FX15, FX18. Which of them reads and which timer each names is general knowledge, not the source's (R187,
decision D11, notes/assumptions/2.md). -/
def Obligations.TimerInstructionsMoveBytes : Prop :=
  SpelledBy 0xF0FF 0xF007 (fun op => .ldVxDT (fieldX op)) ∧
  SpelledBy 0xF0FF 0xF015 (fun op => .ldDTVx (fieldX op)) ∧
  SpelledBy 0xF0FF 0xF018 (fun op => .ldSTVx (fieldX op)) ∧
  ∀ (x : Nibble) (s : State), ∃ t u w,
    exec (.ldVxDT x) s = .next t ∧ exec (.ldDTVx x) s = .next u ∧ exec (.ldSTVx x) s = .next w ∧
    t.reg x = s.dt ∧ t.dt = s.dt ∧ u.dt = s.reg x ∧ u.st = s.st ∧ w.st = s.reg x ∧ w.dt = s.dt ∧
    t.pc = s.pc + 2 ∧ u.pc = s.pc + 2 ∧ w.pc = s.pc + 2

/-! Frames: what the instructions leave unchanged (closed world: decision D1, notes/assumptions/12.md). -/

/-- The plain register writers 6XKK, 7XKK, 8XY0 to 8XY3, FX07 change VX and `pc`, nothing else. That FX07 writes VX and
leaves DT is general knowledge (decision D11, notes/assumptions/2.md). -/
def Obligations.PlainRegisterWritersFrame : Prop :=
  ∀ (x y : Nibble) (kk : Byte) (s t : State),
    ∀ i ∈ [Instr.ldImm x kk, .addImm x kk, .ldReg x y, .orReg x y, .andReg x y, .xorReg x y, .ldVxDT x],
      exec i s = .next t → Frame [x] [.pc] s t

/-- The flag writers 8XY4 to 8XY7 and 8XYE change VX, VF and `pc`, nothing else. -/
def Obligations.FlagWritersFrame : Prop :=
  ∀ (x y : Nibble) (s t : State),
    ∀ i ∈ [Instr.addReg x y, .sub x y, .shr x y, .subn x y, .shl x y],
      exec i s = .next t → Frame [x, vf] [.pc] s t

/-- Jumps and skips change `pc` alone; ANNN, FX1E, FX29 change `I` and `pc` alone. -/
def Obligations.JumpsSkipsAndIndexWritersFrame : Prop :=
  ∀ (x y : Nibble) (kk : Byte) (nnn : Addr) (s t : State),
    (∀ i ∈ [Instr.jp nnn, .jpV0 nnn, .seImm x kk, .sneImm x kk, .seReg x y, .sneReg x y, .skp x, .sknp x],
      exec i s = .next t → Frame [] [.pc] s t) ∧
    ∀ i ∈ [Instr.ldI nnn, .addI x, .ldF x], exec i s = .next t → Frame [] [.i, .pc] s t

/-- A call that is no overflow changes SP, the slot it pushes to and `pc`; a return that is no underflow changes SP and
`pc`; otherwise ERR alone changes. -/
def Obligations.CallAndRetFrame : Prop :=
  ∀ (nnn : Addr) (s t : State),
    (exec (.call nnn) s = .next t → s.sp ≠ 15 →
      Frame [] [.pc, .sp, .stack] s t ∧ ∀ n : Nibble, n ≠ s.sp + 1 → t.slot n = s.slot n) ∧
    (exec .ret s = .next t → s.sp ≠ 0 → Frame [] [.pc, .sp] s t) ∧
    (exec (.call nnn) s = .next t → s.sp = 15 → Frame [] [.err] s t) ∧
    (exec .ret s = .next t → s.sp = 0 → Frame [] [.err] s t)

/-- FX33 and FX55 change `pc` and the bytes at the effective addresses they store to, nothing else; FX65 changes V0 to
VX and `pc` alone. -/
def Obligations.MemoryTransfersFrame : Prop :=
  ∀ (x : Nibble) (s t : State),
    (exec (.ldB x) s = .next t → Frame [] [.pc, .mem] s t ∧
      ∀ a : Addr, (∀ k < 3, a ≠ s.ea k) → t.memRead a = s.memRead a) ∧
    (exec (.storeRegs x) s = .next t → Frame [] [.pc, .mem] s t ∧
      ∀ a : Addr, (∀ k < x.toNat + 1, a ≠ s.ea k) → t.memRead a = s.memRead a) ∧
    (exec (.loadRegs x) s = .next t →
      (∀ r : Nibble, x < r → t.reg r = s.reg r) ∧ ∀ p : Part, p ≠ .pc → p.same s t)

/-- 00E0 changes FB, REDRAW and `pc`; DXYN these and VF; FX15 and FX18 their timer and `pc`; CXKK VX, `pc` and the
model's count of draws; FX0A either VX and `pc` or WAIT and WAITX; nothing else. Which timer FX15 and FX18
write is general knowledge (decision D11, notes/assumptions/2.md), the wait of FX0A is decision D7
(notes/assumptions/9.md), the count is the model's own (notes/assumptions/6.md). -/
def Obligations.DisplayTimerRandomAndKeyFrame : Prop :=
  ∀ (x y n : Nibble) (kk : Byte) (s t : State),
    (exec .cls s = .next t → Frame [] [.fb, .redraw, .pc] s t) ∧
    (exec (.drw x y n) s = .next t → Frame [vf] [.fb, .redraw, .pc] s t) ∧
    (exec (.ldDTVx x) s = .next t → Frame [] [.dt, .pc] s t) ∧
    (exec (.ldSTVx x) s = .next t → Frame [] [.st, .pc] s t) ∧
    (exec (.rnd x kk) s = .next t → Frame [x] [.pc, .draws] s t) ∧
    (exec (.ldVxK x) s = .next t → Frame [x] [.pc] s t ∨ Frame [] [.wait, .waitX] s t)

/-! Whole-machine rules. -/

/-- What a step can change only by certain instructions (the tables of R22 and R35): a changed part names the instruction
the step ran, or the key wait it ended, or the error it raised; `pc` changes only where no error is left. No step changes
a key or clears REDRAW. The timer clauses rest on the directions of FX15 and FX18 (decision D11, general knowledge,
notes/assumptions/2.md), the redraw flag on decision D12 and conflict C5 (notes/assumptions/8.md), the wait on decision D7
(notes/assumptions/9.md), the error on decisions D4 and D5 (notes/assumptions/7.md and 10.md). The last clause is about
the model's own count of draws. -/
def Obligations.OnlyNamedInstructionsWrite : Prop :=
  ∀ s t : State, step s = .next t →
    t.key = s.key ∧
    (s.redraw = true → t.redraw = true) ∧
    (∀ r, t.reg r ≠ s.reg r → (∃ j, s.nextInstr = some j ∧ r ∈ destsOf j) ∨ (s.Waiting ∧ r = s.waitX)) ∧
    (t.i ≠ s.i → ∃ j, s.nextInstr = some j ∧ ((∃ nnn, j = .ldI nnn) ∨ ∃ x, j = .addI x ∨ j = .ldF x)) ∧
    (t.pc ≠ s.pc → t.err = none) ∧
    (t.stack ≠ s.stack → ∃ nnn, s.nextInstr = some (.call nnn)) ∧
    (t.sp ≠ s.sp → s.nextInstr = some .ret ∨ ∃ nnn, s.nextInstr = some (.call nnn)) ∧
    (t.dt ≠ s.dt → ∃ x, s.nextInstr = some (.ldDTVx x) ∧ t.dt = s.reg x) ∧
    (t.st ≠ s.st → ∃ x, s.nextInstr = some (.ldSTVx x) ∧ t.st = s.reg x) ∧
    (t.fb ≠ s.fb ∨ t.redraw ≠ s.redraw → s.nextInstr = some .cls ∨ ∃ x y n, s.nextInstr = some (.drw x y n)) ∧
    (t.wait ≠ s.wait → (t.wait = true ∧ ∃ x, s.nextInstr = some (.ldVxK x)) ∨ (s.Waiting ∧ t.wait = false)) ∧
    (t.waitX ≠ s.waitX → t.wait = true ∧ s.nextInstr = some (.ldVxK t.waitX)) ∧
    (t.err ≠ s.err → s.Running ∧ t.err = s.cause) ∧
    (t.mem ≠ s.mem → ∃ x, s.nextInstr = some (.ldB x) ∨ s.nextInstr = some (.storeRegs x)) ∧
    (t.draws ≠ s.draws → ∃ x kk, s.nextInstr = some (.rnd x kk) ∧ t.draws = s.draws + 1)

/-- VF changes in a step that writes no register named VF only by the six flag writers, and then it is 0 or 1 (R21).
That FX07 writes VX is decision D11 (notes/assumptions/2.md), that FX0A does so at once with a key pressed is decision D7
(notes/assumptions/9.md), the flag on equal operands is conflict C3 (notes/assumptions/4.md). -/
def Obligations.FlagIsWrittenByFlagWritersOnly : Prop :=
  ∀ s t : State, s.Running → step s = .next t → t.reg vf ≠ s.reg vf →
    (∃ x y n, (s.nextInstr = some (.addReg x y) ∨ s.nextInstr = some (.sub x y) ∨ s.nextInstr = some (.shr x y) ∨
        s.nextInstr = some (.subn x y) ∨ s.nextInstr = some (.shl x y) ∨ s.nextInstr = some (.drw x y n)) ∧
      (x ≠ vf ∨ s.nextInstr = some (.drw x y n) → t.reg vf = 0 ∨ t.reg vf = 1)) ∨
    (∃ kk y, s.nextInstr = some (.ldImm vf kk) ∨ s.nextInstr = some (.addImm vf kk) ∨
      s.nextInstr = some (.rnd vf kk) ∨ s.nextInstr = some (.ldReg vf y) ∨ s.nextInstr = some (.orReg vf y) ∨
      s.nextInstr = some (.andReg vf y) ∨ s.nextInstr = some (.xorReg vf y)) ∨
    s.nextInstr = some (.ldVxDT vf) ∨ s.nextInstr = some (.ldVxK vf) ∨ s.nextInstr = some (.loadRegs vf)

/-- The keys are read by EX9E, EXA1 and FX0A only, the random byte by CXKK only: with other keys or another draw every
other instruction does the same, and a cycle that runs no CXKK is the step, whatever its random byte. A step is the cycle
with the free byte as its random byte (decision D9, notes/assumptions/6.md). Of the open parameters of R6,
SUB_EQ_VF is read by 8XY5 and 8XY7 on equal operands only, KEYSEL by FX0A and a key wait only, STRICT_DECODE where a word
is no strict instruction, FONT by reset only, for the cells 0x000 to 0x04F and
nothing else of the state; at the spec's values (notes/assumptions/1.md,
3.md, 4.md, 5.md and 14.md) they give the machine of `step`. -/
def Obligations.InputsAreReadWhereNamedOnly : Prop :=
  (∀ (i : Instr) (s : State) (key : Vector Bool 16), (∀ x, i ≠ .skp x ∧ i ≠ .sknp x ∧ i ≠ .ldVxK x) →
    ∃ t, exec i s = .next t ∧ exec i { s with key := key } = .next { t with key := key }) ∧
  (∀ (i : Instr) (s : State) (n : Nat), (∀ x kk, i ≠ .rnd x kk) →
    ∃ t, exec i s = .next t ∧ exec i { s with draws := n } = .next { t with draws := n }) ∧
  (∀ s : State, step s = cycle (Config.rand s.draws) s) ∧
  (∀ (rand : Byte) (s : State), (∀ x kk, s.nextInstr ≠ some (.rnd x kk)) → cycle rand s = step s) ∧
  (∀ (p : Params) (rand : Byte) (s : State), (∀ x kk, s.nextInstrWith p.strictDecode ≠ some (.rnd x kk)) →
    cycleWith p rand s = stepWith p s) ∧
  Params.spec.Lawful ∧ (∀ s : State, stepWith .spec s = step s) ∧ State.resetWith Params.spec.font = State.reset ∧
  (∀ (p : Params) (i : Instr) (s : State),
    (∀ x y, i = .sub x y ∨ i = .subn x y → s.reg x ≠ s.reg y) → (∀ x, i ≠ .ldVxK x) → execWith p i s = exec i s) ∧
  (∀ (p : Params) (s : State), s.Running →
    (∀ i, s.fetchInstr = .ok i → stepWith p s = execWith p i s) ∧
    (s.fetch = .error .outOfBounds → stepWith p s = step s) ∧
    (∀ op, s.fetch = .ok op → decodeWith false op = .error (.invalidOpcode op) → stepWith p s = step s) ∧
    (p.strictDecode = true → ∀ e, s.fetchInstr = .error e → stepWith p s = step s)) ∧
  ∀ p : Params, p.Lawful → Frame [] [.mem] State.reset (State.resetWith p.font) ∧
    ∀ a : Addr, (State.resetWith p.font).memRead a = if a.toNat < 80 then p.font.getD a.toNat 0 else 0

/-! Reset and the host's transactions. -/

/-- The reset state, every entry of the table of R36. SP, REDRAW, WAIT, WAITX and ERR are the spec's decisions D4, D12, D7
and D5 (notes/assumptions/7.md to 10.md), the font bytes are general knowledge (decision D10,
notes/assumptions/1.md). -/
def Obligations.ResetLeavesTheTable : Prop :=
  (∀ r, State.reset.reg r = 0) ∧ State.reset.i = 0 ∧ State.reset.pc = 0x200 ∧ (∀ n, State.reset.slot n = 0) ∧
  State.reset.sp = 0 ∧ State.reset.dt = 0 ∧ State.reset.st = 0 ∧
  (∀ k : Nibble, State.reset.key[k.toNat]'(nibble_lt k) = false) ∧
  (∀ x y, getPixel State.reset.fb x y = false) ∧ State.reset.redraw = false ∧ State.reset.wait = false ∧
  State.reset.waitX = 0 ∧ State.reset.err = none ∧ font.length = 80 ∧
  (∀ a : Addr, a.toNat < 80 → State.reset.memRead a = font.getD a.toNat 0) ∧
  (∀ a : Addr, 80 ≤ a.toNat → State.reset.memRead a = 0) ∧
  ∀ z : Session, transact .reset z = .next (⟨State.reset, .empty⟩, .done)

/-- tickTimers, setKey, consumeRedraw and the reads, in every state of the machine (decisions D21, D22, D12;
notes/assumptions/8.md, 19.md and 24.md). The transactions of these names, and of `cycle`, are these operations on the
machine of the session: they answer done, or what the cycle has to tell, and only a cycle closes the launch window. -/
def Obligations.TicksKeysAndRedraw : Prop :=
  (∀ s : State,
    ((tickTimers s).dt.toNat = s.dt.toNat - 1 ∧ (tickTimers s).st.toNat = s.st.toNat - 1 ∧
      Frame [] [.dt, .st] s (tickTimers s)) ∧
    (∀ (k j : Nibble) (b : Bool),
      ((setKey k b s).key[j.toNat]'(nibble_lt j) = if j = k then b else s.key[j.toNat]'(nibble_lt j)) ∧
      Frame [] [.key] s (setKey k b s)) ∧
    ((consumeRedraw s).redraw = false ∧ Frame [] [.redraw] s (consumeRedraw s)) ∧
    ∀ x y : Nat, readPixel x y s =
      (s.fb[y % 32]'(Nat.mod_lt _ (by decide)))[x % 64]'(Nat.mod_lt _ (by decide))) ∧
  ∀ z : Session,
    transact .tickTimers z = .next (⟨tickTimers z.state, z.window⟩, .done) ∧
    (∀ (k : Nibble) (b : Bool),
      transact (.setKey k.toNat b) z = .next (⟨setKey k b z.state, z.window⟩, .done)) ∧
    transact .consumeRedraw z = .next (⟨consumeRedraw z.state, z.window⟩, .done) ∧
    ∀ rand : Byte, ∃ t a, cycle rand z.state = .next t ∧ transact (.cycle rand) z = .next (⟨t, .closed⟩, a)

/-- loadProgram: 3584 bytes and fewer go to 0x200 and up and nothing else changes; more are refused whole
(ProgramTooLarge), nothing written. -/
def Obligations.LoadProgramWritesOrRefusesWhole : Prop :=
  ∀ (bytes : List Byte) (s : State),
    (bytes.length ≤ 3584 → ∃ t, loadProgram bytes s = .next t ∧
      (∀ a : Addr, t.memRead a =
        if 0x200 ≤ a.toNat ∧ a.toNat < 0x200 + bytes.length then bytes.getD (a.toNat - 0x200) 0 else s.memRead a) ∧
      Frame [] [.mem] s t) ∧
    (3584 < bytes.length → loadProgram bytes s = .fault (.programTooLarge bytes.length))

/-- The launch window (R245, decision D17, notes/assumptions/17.md and 19.md): a first program that fits is loaded and
the machine, whose keys the host may already have set, is then in a launch state for it; one that is too large is
answered with the code 5 (decision D6, notes/assumptions/14.md) and its length and changes nothing; after a success or
a cycle no program is loaded; setKey above 15 is no transaction. -/
def Obligations.LaunchWindowRules : Prop :=
  (∀ (bytes : List Byte) (z : Session), bytes.length ≤ 3584 →
    (z.window = .empty → ∃ t, transact (.loadProgram bytes) z = .next (⟨t, .loaded⟩, .done) ∧
      ((∃ key, z.state = { State.reset with key := key }) → Launch bytes t)) ∧
    (z.window ≠ .empty → transact (.loadProgram bytes) z = .refused .loadOutsideLaunchWindow)) ∧
  (∀ (bytes : List Byte) (z : Session), 3584 < bytes.length → z.window ≠ .closed →
    transact (.loadProgram bytes) z = .next (z, .programTooLarge 5 bytes.length)) ∧
  (∀ (rand : Byte) (z : Session), ∃ t a, transact (.cycle rand) z = .next (⟨t, .closed⟩, a)) ∧
  ∀ (k : Nat) (b : Bool) (z : Session), 16 ≤ k → transact (.setKey k b) z = .refused (.keyIndexOutOfRange k)
end

