-- ==== Sys2Proof/Laws/Decode.lean ====
section
/-! SUPPORT. The fields of a word and of an encoded instruction, and the word that two bytes make. -/

namespace Sys2Proof

/-- A word is its four nibbles. -/
theorem word_eq_fields (op : Word) : op = fieldP op ++ (fieldX op ++ (fieldY op ++ fieldN op)) := by
  refine BitVec.eq_of_getLsbD_eq fun k hk => ?_
  simp only [fieldP, fieldX, fieldY, fieldN, BitVec.getLsbD_append, BitVec.getLsbD_extractLsb']
  split_ifs
  · simp [show k < 4 by omega]
  · simp [show k - 4 < 4 by omega, show 4 + (k - 4) = k by omega]
  · simp [show k - 8 < 4 by omega, show 8 + (k - 8) = k by omega]
  · simp [show k - 12 < 4 by omega, show 12 + (k - 12) = k by omega]

theorem fieldKK_eq (op : Word) : fieldKK op = fieldY op ++ fieldN op := by
  refine BitVec.eq_of_getLsbD_eq fun k hk => ?_
  simp only [fieldKK, fieldY, fieldN, BitVec.getLsbD_append, BitVec.getLsbD_extractLsb']
  split_ifs
  · simp [hk, show k < 4 by omega]
  · simp [hk, show k - 4 < 4 by omega, show 4 + (k - 4) = k by omega]

theorem fieldNNN_eq (op : Word) : fieldNNN op = fieldX op ++ (fieldY op ++ fieldN op) := by
  refine BitVec.eq_of_getLsbD_eq fun k hk => ?_
  simp only [fieldNNN, fieldX, fieldY, fieldN, BitVec.getLsbD_append, BitVec.getLsbD_extractLsb']
  split_ifs
  · simp [hk, show k < 4 by omega]
  · simp [hk, show k - 4 < 4 by omega, show 4 + (k - 4) = k by omega]
  · simp [hk, show k - 8 < 4 by omega, show 8 + (k - 8) = k by omega]

theorem wordOfBytes_hi_lo (op : Word) : wordOfBytes (hiByte op) (loByte op) = op := by
  refine BitVec.eq_of_getLsbD_eq fun k hk => ?_
  simp only [wordOfBytes, hiByte, loByte, BitVec.getLsbD_append, BitVec.getLsbD_extractLsb']
  split_ifs
  · simp [show k < 8 by omega]
  · simp [show k - 8 < 8 by omega, show 8 + (k - 8) = k by omega]

@[simp] theorem hiByte_wordOfBytes (a b : Byte) : hiByte (wordOfBytes a b) = a := by
  refine BitVec.eq_of_getLsbD_eq fun k hk => ?_
  simp only [wordOfBytes, hiByte, BitVec.getLsbD_append, BitVec.getLsbD_extractLsb']
  rw [if_neg (by omega)]
  simp [hk, show 8 + k - 8 = k by omega]

@[simp] theorem loByte_wordOfBytes (a b : Byte) : loByte (wordOfBytes a b) = b := by
  refine BitVec.eq_of_getLsbD_eq fun k hk => ?_
  simp only [wordOfBytes, loByte, BitVec.getLsbD_append, BitVec.getLsbD_extractLsb']
  rw [if_pos (by omega)]
  simp [hk]

/-! The fields of four nibbles put together. -/

section
variable (p x y n : Nibble)

@[simp] theorem fieldP_nibbles : fieldP (p ++ (x ++ (y ++ n)) : Word) = p := by
  refine BitVec.eq_of_getLsbD_eq fun k hk => ?_
  simp only [fieldP, BitVec.getLsbD_append, BitVec.getLsbD_extractLsb']
  rw [if_neg (by omega)]
  simp [hk, show 12 + k - 12 = k by omega]

@[simp] theorem fieldX_nibbles : fieldX (p ++ (x ++ (y ++ n)) : Word) = x := by
  refine BitVec.eq_of_getLsbD_eq fun k hk => ?_
  simp only [fieldX, BitVec.getLsbD_append, BitVec.getLsbD_extractLsb']
  rw [if_pos (by omega), if_neg (by omega)]
  simp [hk, show 8 + k - 8 = k by omega]

@[simp] theorem fieldY_nibbles : fieldY (p ++ (x ++ (y ++ n)) : Word) = y := by
  refine BitVec.eq_of_getLsbD_eq fun k hk => ?_
  simp only [fieldY, BitVec.getLsbD_append, BitVec.getLsbD_extractLsb']
  rw [if_pos (by omega), if_pos (by omega), if_neg (by omega)]
  simp [hk, show 4 + k - 4 = k by omega]

@[simp] theorem fieldN_nibbles : fieldN (p ++ (x ++ (y ++ n)) : Word) = n := by
  refine BitVec.eq_of_getLsbD_eq fun k hk => ?_
  simp only [fieldN, BitVec.getLsbD_append, BitVec.getLsbD_extractLsb']
  rw [if_pos (by omega), if_pos (by omega), if_pos (by omega)]
  simp [hk]

end

/-- A byte is its two nibbles. -/
theorem byte_eq_nibbles (kk : Byte) : ∃ y n : Nibble, kk = y ++ n := by
  refine ⟨kk.extractLsb' 4 4, kk.extractLsb' 0 4, BitVec.eq_of_getLsbD_eq fun k hk => ?_⟩
  simp only [BitVec.getLsbD_append, BitVec.getLsbD_extractLsb']
  split_ifs
  · simp [show k < 4 by omega]
  · simp [show k - 4 < 4 by omega, show 4 + (k - 4) = k by omega]

/-- An address is its three nibbles. -/
theorem addr_eq_nibbles (a : Addr) : ∃ x y n : Nibble, a = x ++ (y ++ n) := by
  refine ⟨a.extractLsb' 8 4, a.extractLsb' 4 4, a.extractLsb' 0 4, BitVec.eq_of_getLsbD_eq fun k hk => ?_⟩
  simp only [BitVec.getLsbD_append, BitVec.getLsbD_extractLsb']
  split_ifs
  · simp [show k < 4 by omega]
  · simp [show k - 4 < 4 by omega, show 4 + (k - 4) = k by omega]
  · simp [show k - 8 < 4 by omega, show 8 + (k - 8) = k by omega]

/-- A nibble under the mask of all ones. -/
@[simp] theorem nibble_and_ones (p : Nibble) : p &&& 15#4 = p := by
  revert p
  decide

/-- Masking four nibbles masks each (R75). -/
theorem and_nibbles (p x y n mp mx my mn : Nibble) :
    ((p ++ (x ++ (y ++ n)) : Word) &&& (mp ++ (mx ++ (my ++ mn)) : Word)) =
      (p &&& mp) ++ ((x &&& mx) ++ ((y &&& my) ++ (n &&& mn))) := by
  refine BitVec.eq_of_getLsbD_eq fun k hk => ?_
  simp only [BitVec.getLsbD_and, BitVec.getLsbD_append]
  split_ifs <;> rfl

/-- Four nibbles are equal as a word when each is. -/
theorem nibbles_inj {p x y n p' x' y' n' : Nibble} :
    (p ++ (x ++ (y ++ n)) : Word) = p' ++ (x' ++ (y' ++ n')) ↔ p = p' ∧ x = x' ∧ y = y' ∧ n = n' := by
  constructor
  · intro h
    have hp := congrArg fieldP h
    have hx := congrArg fieldX h
    have hy := congrArg fieldY h
    have hn := congrArg fieldN h
    simp only [fieldP_nibbles, fieldX_nibbles, fieldY_nibbles, fieldN_nibbles] at hp hx hy hn
    exact ⟨hp, hx, hy, hn⟩
  · rintro ⟨rfl, rfl, rfl, rfl⟩
    rfl

end Sys2Proof
end

