-- ==== Sys2Proof/Laws/Framebuffer.lean ====
section
/-! SUPPORT. The laws of the Framebuffer component: a pixel after setPixel, after clear, and after drawSprite (R162,
R166). -/

namespace Sys2Proof.Machine

/-- The pixels `(x, y)` and `(x', y')` are one pixel of the grid (R161). -/
def SamePixel (x y x' y' : Nat) : Prop := x % 64 = x' % 64 ∧ y % 32 = y' % 32

theorem getPixel_congr (fb : Framebuffer) {x y x' y' : Nat} (h : SamePixel x y x' y') :
    getPixel fb x y = getPixel fb x' y' := by
  unfold getPixel
  simp only [h.1, h.2]

theorem getPixel_setPixel_same (fb : Framebuffer) {x y x' y' : Nat} (v : Bool) (h : SamePixel x' y' x y) :
    getPixel (setPixel fb x y v) x' y' = v := by
  unfold getPixel setPixel
  simp [h.1, h.2]

theorem getPixel_setPixel_ne (fb : Framebuffer) {x y x' y' : Nat} (v : Bool) (h : ¬ SamePixel x' y' x y) :
    getPixel (setPixel fb x y v) x' y' = getPixel fb x' y' := by
  unfold getPixel setPixel
  by_cases hy : y' % 32 = y % 32
  · have hx : x % 64 ≠ x' % 64 := fun hx => h ⟨hx.symm, hy⟩
    simp [hy, hx]
  · simp [Ne.symm hy]

@[simp] theorem getPixel_fbClear (x y : Nat) : getPixel fbClear x y = false := by
  simp [getPixel, fbClear]

/-- Two grids with the same pixels are the same grid. -/
theorem fb_ext {f g : Framebuffer} (h : ∀ x < 64, ∀ y < 32, getPixel f x y = getPixel g x y) : f = g := by
  apply Vector.ext
  intro y hy
  apply Vector.ext
  intro x hx
  have := h x hx y hy
  simpa [getPixel, Nat.mod_eq_of_lt hx, Nat.mod_eq_of_lt hy] using this

/-- The pixel of the sprite bit at column `dx` of row `dy` (R162). -/
def Hits (x y n : Nat) (px py dx dy : Nat) : Prop := dx < 8 ∧ dy < n ∧ SamePixel px py (x + dx) (y + dy)

/-- One row of a sprite of at most 8 columns: the pixels it hits take the XOR, the others stay. -/
theorem getPixel_drawColumns (before : Framebuffer) (x y : Nat) (row : Byte) (acc : Framebuffer × Bool)
    {n : Nat} (hn : n ≤ 8) (px py : Nat) :
    (∀ dx < n, SamePixel px py (x + dx) y →
      getPixel (drawColumns before x y row n acc).1 px py = (getPixel before px py ^^ spriteBit row dx)) ∧
    ((∀ dx < n, ¬ SamePixel px py (x + dx) y) →
      getPixel (drawColumns before x y row n acc).1 px py = getPixel acc.1 px py) := by
  induction n with
  | zero => simp [drawColumns]
  | succ n ih =>
    obtain ⟨ih1, ih2⟩ := ih (by omega)
    simp only [drawColumns, drawBit]
    constructor
    · intro dx hdx hs
      by_cases h : dx = n
      · subst h
        rw [getPixel_setPixel_same _ _ hs, getPixel_congr before hs]
      · rw [getPixel_setPixel_ne, ih1 dx (by omega) hs]
        intro hs'
        have h1 := hs.1
        have h2 := hs'.1
        omega
    · intro hno
      rw [getPixel_setPixel_ne _ _ (hno n (by omega)), ih2 fun dx hdx => hno dx (by omega)]

theorem snd_drawColumns (before : Framebuffer) (x y : Nat) (row : Byte) (acc : Framebuffer × Bool) (n : Nat) :
    (drawColumns before x y row n acc).2 = true ↔
      acc.2 = true ∨ ∃ dx < n, getPixel before (x + dx) y = true ∧ spriteBit row dx = true := by
  induction n with
  | zero => simp [drawColumns]
  | succ n ih =>
    simp only [drawColumns, drawBit, Bool.or_eq_true, Bool.and_eq_true, ih]
    constructor
    · rintro ((h | ⟨dx, hdx, h⟩) | h)
      · exact .inl h
      · exact .inr ⟨dx, by omega, h⟩
      · exact .inr ⟨n, by omega, h⟩
    · rintro (h | ⟨dx, hdx, h⟩)
      · exact .inl (.inl h)
      · by_cases hn : dx = n
        · subst hn; exact .inr h
        · exact .inl (.inr ⟨dx, by omega, h⟩)

theorem getPixel_drawRows (before : Framebuffer) (x : Nat) (rows : List Byte) :
    ∀ (y : Nat) (acc : Framebuffer × Bool) (_ : rows.length ≤ 32) (px py : Nat),
    (∀ dx dy, Hits x y rows.length px py dx dy →
      getPixel (drawRows before x y rows acc).1 px py = (getPixel before px py ^^ spriteBit (rows.getD dy 0) dx)) ∧
    ((∀ dx dy, ¬ Hits x y rows.length px py dx dy) →
      getPixel (drawRows before x y rows acc).1 px py = getPixel acc.1 px py) := by
  induction rows with
  | nil => intro y acc _ px py; simp [Hits, drawRows]
  | cons row rows ih =>
    intro y acc hlen px py
    simp only [List.length_cons] at hlen
    obtain ⟨ih1, ih2⟩ := ih (y + 1) (drawColumns before x y row 8 acc) (by omega) px py
    obtain ⟨c1, c2⟩ := getPixel_drawColumns before x y row acc (le_refl 8) px py
    simp only [drawRows]
    constructor
    · intro dx dy h
      obtain ⟨hdx, hdy, hs⟩ := h
      simp only [List.length_cons] at hdy
      cases dy with
      | zero =>
        rw [ih2, c1 dx hdx hs]
        · rfl
        · rintro dx' dy' ⟨-, hdy', hs'⟩
          have h1 := hs.2
          have h2 := hs'.2
          omega
      | succ dy =>
        rw [ih1 dx dy ⟨hdx, by omega, hs.1, by rw [hs.2]; congr 1; omega⟩]
        rfl
    · intro hno
      rw [ih2, c2]
      · intro dx hdx hs
        exact hno dx 0 ⟨hdx, by simp, hs⟩
      · rintro dx dy ⟨hdx, hdy, hs⟩
        exact hno dx (dy + 1) ⟨hdx, by simpa using hdy, hs.1, by rw [hs.2]; congr 1; omega⟩

theorem snd_drawRows (before : Framebuffer) (x : Nat) (rows : List Byte) :
    ∀ (y : Nat) (acc : Framebuffer × Bool),
    (drawRows before x y rows acc).2 = true ↔
      acc.2 = true ∨ ∃ dx < 8, ∃ dy < rows.length,
        getPixel before (x + dx) (y + dy) = true ∧ spriteBit (rows.getD dy 0) dx = true := by
  induction rows with
  | nil => intro y acc; simp [drawRows]
  | cons row rows ih =>
    intro y acc
    simp only [drawRows, ih, snd_drawColumns, List.length_cons]
    constructor
    · rintro ((h | ⟨dx, hdx, h⟩) | ⟨dx, hdx, dy, hdy, h⟩)
      · exact .inl h
      · exact .inr ⟨dx, hdx, 0, by omega, by simpa using h⟩
      · refine .inr ⟨dx, hdx, dy + 1, by omega, ?_⟩
        rw [show y + (dy + 1) = y + 1 + dy by omega]
        simpa using h
    · rintro (h | ⟨dx, hdx, dy, hdy, h⟩)
      · exact .inl (.inl h)
      · cases dy with
        | zero => exact .inl (.inr ⟨dx, hdx, by simpa using h⟩)
        | succ dy =>
          refine .inr ⟨dx, hdx, dy, by omega, ?_⟩
          rw [show y + 1 + dy = y + (dy + 1) by omega]
          simpa using h

/-- A pixel that a sprite of at most 32 rows hits takes the XOR with its bit (R162, R166). -/
theorem getPixel_drawSprite_hit (fb : Framebuffer) (x y : Nat) {rows : List Byte} (hlen : rows.length ≤ 32)
    {px py dx dy : Nat} (h : Hits x y rows.length px py dx dy) :
    getPixel (drawSprite fb x y rows).1 px py = (getPixel fb px py ^^ spriteBit (rows.getD dy 0) dx) :=
  (getPixel_drawRows fb x rows y (fb, false) hlen px py).1 dx dy h

/-- A pixel that a sprite does not hit stays. -/
theorem getPixel_drawSprite_miss (fb : Framebuffer) (x y : Nat) {rows : List Byte} (hlen : rows.length ≤ 32)
    {px py : Nat} (h : ∀ dx dy, ¬ Hits x y rows.length px py dx dy) :
    getPixel (drawSprite fb x y rows).1 px py = getPixel fb px py :=
  (getPixel_drawRows fb x rows y (fb, false) hlen px py).2 h

/-- The collision flag of drawSprite (R162). -/
theorem drawSprite_collides (fb : Framebuffer) (x y : Nat) (rows : List Byte) :
    (drawSprite fb x y rows).2 = true ↔
      ∃ dx < 8, ∃ dy < rows.length, getPixel fb (x + dx) (y + dy) = true ∧ spriteBit (rows.getD dy 0) dx = true := by
  have h := snd_drawRows fb x rows y (fb, false)
  simp only [Bool.false_eq_true, false_or] at h
  exact h

end Sys2Proof.Machine
end

