-- ==== Sys2Proof/Laws/State.lean ====
section
/-! SUPPORT. One lemma per field per update of the state, each true by rfl, so that no proof unfolds a record update. -/

namespace Sys2Proof.Machine

@[simp] theorem State.v_setReg (s : State) (x : Nibble) (b : Byte) : (s.setReg x b).v = s.v.set x.toNat b (nibble_lt x) := rfl
@[simp] theorem State.i_setReg (s : State) (x : Nibble) (b : Byte) : (s.setReg x b).i = s.i := rfl
@[simp] theorem State.pc_setReg (s : State) (x : Nibble) (b : Byte) : (s.setReg x b).pc = s.pc := rfl
@[simp] theorem State.stack_setReg (s : State) (x : Nibble) (b : Byte) : (s.setReg x b).stack = s.stack := rfl
@[simp] theorem State.sp_setReg (s : State) (x : Nibble) (b : Byte) : (s.setReg x b).sp = s.sp := rfl
@[simp] theorem State.dt_setReg (s : State) (x : Nibble) (b : Byte) : (s.setReg x b).dt = s.dt := rfl
@[simp] theorem State.st_setReg (s : State) (x : Nibble) (b : Byte) : (s.setReg x b).st = s.st := rfl
@[simp] theorem State.key_setReg (s : State) (x : Nibble) (b : Byte) : (s.setReg x b).key = s.key := rfl
@[simp] theorem State.fb_setReg (s : State) (x : Nibble) (b : Byte) : (s.setReg x b).fb = s.fb := rfl
@[simp] theorem State.redraw_setReg (s : State) (x : Nibble) (b : Byte) : (s.setReg x b).redraw = s.redraw := rfl
@[simp] theorem State.wait_setReg (s : State) (x : Nibble) (b : Byte) : (s.setReg x b).wait = s.wait := rfl
@[simp] theorem State.waitX_setReg (s : State) (x : Nibble) (b : Byte) : (s.setReg x b).waitX = s.waitX := rfl
@[simp] theorem State.err_setReg (s : State) (x : Nibble) (b : Byte) : (s.setReg x b).err = s.err := rfl
@[simp] theorem State.mem_setReg (s : State) (x : Nibble) (b : Byte) : (s.setReg x b).mem = s.mem := rfl
@[simp] theorem State.draws_setReg (s : State) (x : Nibble) (b : Byte) : (s.setReg x b).draws = s.draws := rfl

@[simp] theorem State.v_setFlag (s : State) (f : Byte) : (s.setFlag f).v = s.v.set vf.toNat f (nibble_lt vf) := rfl
@[simp] theorem State.i_setFlag (s : State) (f : Byte) : (s.setFlag f).i = s.i := rfl
@[simp] theorem State.pc_setFlag (s : State) (f : Byte) : (s.setFlag f).pc = s.pc := rfl
@[simp] theorem State.stack_setFlag (s : State) (f : Byte) : (s.setFlag f).stack = s.stack := rfl
@[simp] theorem State.sp_setFlag (s : State) (f : Byte) : (s.setFlag f).sp = s.sp := rfl
@[simp] theorem State.dt_setFlag (s : State) (f : Byte) : (s.setFlag f).dt = s.dt := rfl
@[simp] theorem State.st_setFlag (s : State) (f : Byte) : (s.setFlag f).st = s.st := rfl
@[simp] theorem State.key_setFlag (s : State) (f : Byte) : (s.setFlag f).key = s.key := rfl
@[simp] theorem State.fb_setFlag (s : State) (f : Byte) : (s.setFlag f).fb = s.fb := rfl
@[simp] theorem State.redraw_setFlag (s : State) (f : Byte) : (s.setFlag f).redraw = s.redraw := rfl
@[simp] theorem State.wait_setFlag (s : State) (f : Byte) : (s.setFlag f).wait = s.wait := rfl
@[simp] theorem State.waitX_setFlag (s : State) (f : Byte) : (s.setFlag f).waitX = s.waitX := rfl
@[simp] theorem State.err_setFlag (s : State) (f : Byte) : (s.setFlag f).err = s.err := rfl
@[simp] theorem State.mem_setFlag (s : State) (f : Byte) : (s.setFlag f).mem = s.mem := rfl
@[simp] theorem State.draws_setFlag (s : State) (f : Byte) : (s.setFlag f).draws = s.draws := rfl

@[simp] theorem State.v_setI (s : State) (w : Word) : (s.setI w).v = s.v := rfl
@[simp] theorem State.i_setI (s : State) (w : Word) : (s.setI w).i = w := rfl
@[simp] theorem State.pc_setI (s : State) (w : Word) : (s.setI w).pc = s.pc := rfl
@[simp] theorem State.stack_setI (s : State) (w : Word) : (s.setI w).stack = s.stack := rfl
@[simp] theorem State.sp_setI (s : State) (w : Word) : (s.setI w).sp = s.sp := rfl
@[simp] theorem State.dt_setI (s : State) (w : Word) : (s.setI w).dt = s.dt := rfl
@[simp] theorem State.st_setI (s : State) (w : Word) : (s.setI w).st = s.st := rfl
@[simp] theorem State.key_setI (s : State) (w : Word) : (s.setI w).key = s.key := rfl
@[simp] theorem State.fb_setI (s : State) (w : Word) : (s.setI w).fb = s.fb := rfl
@[simp] theorem State.redraw_setI (s : State) (w : Word) : (s.setI w).redraw = s.redraw := rfl
@[simp] theorem State.wait_setI (s : State) (w : Word) : (s.setI w).wait = s.wait := rfl
@[simp] theorem State.waitX_setI (s : State) (w : Word) : (s.setI w).waitX = s.waitX := rfl
@[simp] theorem State.err_setI (s : State) (w : Word) : (s.setI w).err = s.err := rfl
@[simp] theorem State.mem_setI (s : State) (w : Word) : (s.setI w).mem = s.mem := rfl
@[simp] theorem State.draws_setI (s : State) (w : Word) : (s.setI w).draws = s.draws := rfl

@[simp] theorem State.v_jump (s : State) (w : Word) : (s.jump w).v = s.v := rfl
@[simp] theorem State.i_jump (s : State) (w : Word) : (s.jump w).i = s.i := rfl
@[simp] theorem State.pc_jump (s : State) (w : Word) : (s.jump w).pc = w := rfl
@[simp] theorem State.stack_jump (s : State) (w : Word) : (s.jump w).stack = s.stack := rfl
@[simp] theorem State.sp_jump (s : State) (w : Word) : (s.jump w).sp = s.sp := rfl
@[simp] theorem State.dt_jump (s : State) (w : Word) : (s.jump w).dt = s.dt := rfl
@[simp] theorem State.st_jump (s : State) (w : Word) : (s.jump w).st = s.st := rfl
@[simp] theorem State.key_jump (s : State) (w : Word) : (s.jump w).key = s.key := rfl
@[simp] theorem State.fb_jump (s : State) (w : Word) : (s.jump w).fb = s.fb := rfl
@[simp] theorem State.redraw_jump (s : State) (w : Word) : (s.jump w).redraw = s.redraw := rfl
@[simp] theorem State.wait_jump (s : State) (w : Word) : (s.jump w).wait = s.wait := rfl
@[simp] theorem State.waitX_jump (s : State) (w : Word) : (s.jump w).waitX = s.waitX := rfl
@[simp] theorem State.err_jump (s : State) (w : Word) : (s.jump w).err = s.err := rfl
@[simp] theorem State.mem_jump (s : State) (w : Word) : (s.jump w).mem = s.mem := rfl
@[simp] theorem State.draws_jump (s : State) (w : Word) : (s.jump w).draws = s.draws := rfl

@[simp] theorem State.v_advance (s : State) : s.advance.v = s.v := rfl
@[simp] theorem State.i_advance (s : State) : s.advance.i = s.i := rfl
@[simp] theorem State.pc_advance (s : State) : s.advance.pc = s.pc + 2 := rfl
@[simp] theorem State.stack_advance (s : State) : s.advance.stack = s.stack := rfl
@[simp] theorem State.sp_advance (s : State) : s.advance.sp = s.sp := rfl
@[simp] theorem State.dt_advance (s : State) : s.advance.dt = s.dt := rfl
@[simp] theorem State.st_advance (s : State) : s.advance.st = s.st := rfl
@[simp] theorem State.key_advance (s : State) : s.advance.key = s.key := rfl
@[simp] theorem State.fb_advance (s : State) : s.advance.fb = s.fb := rfl
@[simp] theorem State.redraw_advance (s : State) : s.advance.redraw = s.redraw := rfl
@[simp] theorem State.wait_advance (s : State) : s.advance.wait = s.wait := rfl
@[simp] theorem State.waitX_advance (s : State) : s.advance.waitX = s.waitX := rfl
@[simp] theorem State.err_advance (s : State) : s.advance.err = s.err := rfl
@[simp] theorem State.mem_advance (s : State) : s.advance.mem = s.mem := rfl
@[simp] theorem State.draws_advance (s : State) : s.advance.draws = s.draws := rfl

@[simp] theorem State.v_skipIf (s : State) (c : Bool) : (s.skipIf c).v = s.v := rfl
@[simp] theorem State.i_skipIf (s : State) (c : Bool) : (s.skipIf c).i = s.i := rfl
@[simp] theorem State.pc_skipIf (s : State) (c : Bool) : (s.skipIf c).pc = s.pc + if c then 4 else 2 := rfl
@[simp] theorem State.stack_skipIf (s : State) (c : Bool) : (s.skipIf c).stack = s.stack := rfl
@[simp] theorem State.sp_skipIf (s : State) (c : Bool) : (s.skipIf c).sp = s.sp := rfl
@[simp] theorem State.dt_skipIf (s : State) (c : Bool) : (s.skipIf c).dt = s.dt := rfl
@[simp] theorem State.st_skipIf (s : State) (c : Bool) : (s.skipIf c).st = s.st := rfl
@[simp] theorem State.key_skipIf (s : State) (c : Bool) : (s.skipIf c).key = s.key := rfl
@[simp] theorem State.fb_skipIf (s : State) (c : Bool) : (s.skipIf c).fb = s.fb := rfl
@[simp] theorem State.redraw_skipIf (s : State) (c : Bool) : (s.skipIf c).redraw = s.redraw := rfl
@[simp] theorem State.wait_skipIf (s : State) (c : Bool) : (s.skipIf c).wait = s.wait := rfl
@[simp] theorem State.waitX_skipIf (s : State) (c : Bool) : (s.skipIf c).waitX = s.waitX := rfl
@[simp] theorem State.err_skipIf (s : State) (c : Bool) : (s.skipIf c).err = s.err := rfl
@[simp] theorem State.mem_skipIf (s : State) (c : Bool) : (s.skipIf c).mem = s.mem := rfl
@[simp] theorem State.draws_skipIf (s : State) (c : Bool) : (s.skipIf c).draws = s.draws := rfl

@[simp] theorem State.v_memWrite (s : State) (a : Addr) (b : Byte) : (s.memWrite a b).v = s.v := rfl
@[simp] theorem State.i_memWrite (s : State) (a : Addr) (b : Byte) : (s.memWrite a b).i = s.i := rfl
@[simp] theorem State.pc_memWrite (s : State) (a : Addr) (b : Byte) : (s.memWrite a b).pc = s.pc := rfl
@[simp] theorem State.stack_memWrite (s : State) (a : Addr) (b : Byte) : (s.memWrite a b).stack = s.stack := rfl
@[simp] theorem State.sp_memWrite (s : State) (a : Addr) (b : Byte) : (s.memWrite a b).sp = s.sp := rfl
@[simp] theorem State.dt_memWrite (s : State) (a : Addr) (b : Byte) : (s.memWrite a b).dt = s.dt := rfl
@[simp] theorem State.st_memWrite (s : State) (a : Addr) (b : Byte) : (s.memWrite a b).st = s.st := rfl
@[simp] theorem State.key_memWrite (s : State) (a : Addr) (b : Byte) : (s.memWrite a b).key = s.key := rfl
@[simp] theorem State.fb_memWrite (s : State) (a : Addr) (b : Byte) : (s.memWrite a b).fb = s.fb := rfl
@[simp] theorem State.redraw_memWrite (s : State) (a : Addr) (b : Byte) : (s.memWrite a b).redraw = s.redraw := rfl
@[simp] theorem State.wait_memWrite (s : State) (a : Addr) (b : Byte) : (s.memWrite a b).wait = s.wait := rfl
@[simp] theorem State.waitX_memWrite (s : State) (a : Addr) (b : Byte) : (s.memWrite a b).waitX = s.waitX := rfl
@[simp] theorem State.err_memWrite (s : State) (a : Addr) (b : Byte) : (s.memWrite a b).err = s.err := rfl
@[simp] theorem State.mem_memWrite (s : State) (a : Addr) (b : Byte) : (s.memWrite a b).mem = s.mem.write a.toNat b := rfl
@[simp] theorem State.draws_memWrite (s : State) (a : Addr) (b : Byte) : (s.memWrite a b).draws = s.draws := rfl

end Sys2Proof.Machine
end

