-- ==== Sys2Proof/Laws/Memory.lean ====
section
/-! SUPPORT. The laws of the memory: a read after a write (R53), and every operation keeps the canonical form. -/

namespace Sys2Proof.Machine

theorem Memory.read_filter_ne (m : Memory) {a b : Nat} (h : b ≠ a) :
    Memory.read (m.filter fun c => c.1 != a) b = Memory.read m b := by
  induction m with
  | nil => rfl
  | cons c rest ih =>
    by_cases hc : c.1 = a
    · have : c.1 ≠ b := by omega
      simp [hc, Memory.read, ih]
      omega
    · simp [hc, Memory.read, ih]

theorem Memory.read_filter_self (m : Memory) (a : Nat) :
    Memory.read (m.filter fun c => c.1 != a) a = Memory.initial a := by
  induction m with
  | nil => rfl
  | cons c rest ih => by_cases hc : c.1 = a <;> simp [hc, Memory.read, ih]

theorem Memory.read_insertCell_ne (m : Memory) {a b : Nat} (v : Byte) (h : b ≠ a) :
    Memory.read (Memory.insertCell m a v) b = Memory.read m b := by
  induction m with
  | nil => simp [Memory.insertCell, Memory.read, h.symm]
  | cons c rest ih =>
    obtain ⟨k, w⟩ := c
    by_cases hk : a < k
    · simp [Memory.insertCell, hk, Memory.read, h.symm]
    · simp [Memory.insertCell, hk, Memory.read, ih]

theorem Memory.read_insertCell_self (m : Memory) (a : Nat) (v : Byte) (h : ∀ c ∈ m, c.1 ≠ a) :
    Memory.read (Memory.insertCell m a v) a = v := by
  induction m with
  | nil => simp [Memory.insertCell, Memory.read]
  | cons c rest ih =>
    obtain ⟨k, w⟩ := c
    have hk : k ≠ a := h (k, w) (by simp)
    by_cases hlt : a < k
    · simp [Memory.insertCell, hlt, Memory.read]
    · simp [Memory.insertCell, hlt, Memory.read, hk, ih fun c hc => h c (by simp [hc])]

/-- The one fact about reading after a write, on any list. -/
theorem Memory.read_write (m : Memory) (a b : Nat) (v : Byte) :
    Memory.read (Memory.write m a v) b = if b = a then v else Memory.read m b := by
  unfold Memory.write
  by_cases hba : b = a
  · subst hba
    by_cases hv : v = Memory.initial b
    · simp [hv, Memory.read_filter_self]
    · simp only [hv, if_false, if_true]
      exact Memory.read_insertCell_self _ _ _ (by simp)
  · by_cases hv : v = Memory.initial a
    · simp only [hv, if_true, hba, if_false]
      exact Memory.read_filter_ne m hba
    · simp only [hv, if_false, hba]
      rw [Memory.read_insertCell_ne _ _ hba, Memory.read_filter_ne m hba]

theorem Memory.mem_insertCell {m : Memory} {a : Nat} {v : Byte} {c : Host.Cell} :
    c ∈ Memory.insertCell m a v ↔ c = (a, v) ∨ c ∈ m := by
  induction m with
  | nil => simp [Memory.insertCell]
  | cons d rest ih =>
    by_cases hlt : a < d.1
    · simp [Memory.insertCell, hlt]
    · simp only [Memory.insertCell, hlt, if_false, List.mem_cons, ih]
      tauto

theorem Memory.insertCell_sorted {m : Memory} {a : Nat} {v : Byte}
    (hs : m.Pairwise fun c d => c.1 < d.1) (ha : ∀ c ∈ m, c.1 ≠ a) :
    (Memory.insertCell m a v).Pairwise fun c d => c.1 < d.1 := by
  induction m with
  | nil => simp [Memory.insertCell]
  | cons d rest ih =>
    obtain ⟨k, w⟩ := d
    have hk : k ≠ a := ha (k, w) (by simp)
    rw [List.pairwise_cons] at hs
    by_cases hlt : a < k
    · simp only [Memory.insertCell, hlt, if_true, List.pairwise_cons]
      refine ⟨?_, hs.1, hs.2⟩
      intro c hc
      rcases List.mem_cons.1 hc with rfl | hc
      · exact hlt
      · exact lt_trans hlt (hs.1 c hc)
    · simp only [Memory.insertCell, hlt, if_false, List.pairwise_cons]
      refine ⟨?_, ih hs.2 fun c hc => ha c (by simp [hc])⟩
      intro c hc
      rcases Memory.mem_insertCell.1 hc with rfl | hc
      · show k < a
        omega
      · exact hs.1 c hc

/-- A write inside the memory keeps the canonical form. -/
theorem Memory.wf_write {m : Memory} (h : m.wf) {a : Nat} (ha : a < Config.memSize) (v : Byte) :
    (Memory.write m a v).wf := by
  have hs : (m.filter fun c => c.1 != a).Pairwise fun c d => c.1 < d.1 := h.1.filter _
  unfold Memory.write
  by_cases hv : v = Memory.initial a
  · simp only [hv, if_true]
    exact ⟨hs, fun c hc => h.2 c (List.mem_filter.1 hc).1⟩
  · simp only [hv, if_false]
    refine ⟨Memory.insertCell_sorted hs (by simp), fun c hc => ?_⟩
    rcases Memory.mem_insertCell.1 hc with rfl | hc
    · exact ⟨ha, hv⟩
    · exact h.2 c (List.mem_filter.1 hc).1

theorem State.memRead_memWrite (s : State) (a b : Addr) (v : Byte) :
    (s.memWrite a v).memRead b = if b = a then v else s.memRead b := by
  simp [State.memRead, Memory.read_write, BitVec.toNat_inj]

theorem State.wf_memWrite {s : State} (h : s.mem.wf) (a : Addr) (v : Byte) : (s.memWrite a v).mem.wf :=
  Memory.wf_write h (addr_lt a) v

/-- Canonical memories that read the same are the same list. -/
theorem Memory.eq_of_read_eq : ∀ {m n : Memory}, m.wf → n.wf → (∀ a, Memory.read m a = Memory.read n a) → m = n
  | [], [], _, _, _ => rfl
  | [], (b, w) :: n, _, hn, h => by
    have := h b
    simp only [Memory.read, if_true] at this
    exact absurd this.symm (hn.2 (b, w) (by simp)).2
  | (a, v) :: m, [], hm, _, h => by
    have := h a
    simp only [Memory.read, if_true] at this
    exact absurd this (hm.2 (a, v) (by simp)).2
  | (a, v) :: m, (b, w) :: n, hm, hn, h => by
    have unlisted : ∀ {l : Memory} {k : Nat}, (∀ c ∈ l, k < c.1) → Memory.read l k = Memory.initial k := by
      intro l k hl
      induction l with
      | nil => rfl
      | cons c l ih =>
        have hc := hl c (by simp)
        rw [Memory.read, if_neg (by omega), ih fun d hd => hl d (by simp [hd])]
    have hm1 := List.pairwise_cons.1 hm.1
    have hn1 := List.pairwise_cons.1 hn.1
    have hva := (hm.2 (a, v) (by simp)).2
    have hwb := (hn.2 (b, w) (by simp)).2
    rcases lt_trichotomy a b with hlt | heq | hgt
    · have h1 := h a
      rw [Memory.read, if_pos rfl, unlisted (l := (b, w) :: n)] at h1
      · exact absurd h1 hva
      · intro c hc
        rcases List.mem_cons.1 hc with rfl | hc
        · exact hlt
        · exact lt_trans hlt (hn1.1 c hc)
    · subst heq
      have hvw : v = w := by simpa [Memory.read] using h a
      subst hvw
      have := Memory.eq_of_read_eq (m := m) (n := n) ⟨hm1.2, fun c hc => hm.2 c (by simp [hc])⟩
        ⟨hn1.2, fun c hc => hn.2 c (by simp [hc])⟩ (by
          intro k
          by_cases hk : k = a
          · subst hk
            rw [unlisted hm1.1, unlisted hn1.1]
          · simpa [Memory.read, Ne.symm hk] using h k)
      rw [this]
    · have h1 := h b
      rw [Memory.read.eq_2 b b w n, if_pos rfl, unlisted (l := (a, v) :: m)] at h1
      · exact absurd h1.symm hwb
      · intro c hc
        rcases List.mem_cons.1 hc with rfl | hc
        · exact hgt
        · exact lt_trans hgt (hm1.1 c hc)

end Sys2Proof.Machine
end

