-- ==== Sys2Proof/Laws/Ops.lean ====
section
/-! SUPPORT. What each named operation over registers, stack, keys and fetch can do, said once. -/

namespace Sys2Proof.Machine

/-! Registers. -/

theorem State.reg_setReg (s : State) (x y : Nibble) (b : Byte) :
    (s.setReg x b).reg y = if y = x then b else s.reg y := by
  unfold State.reg State.setReg
  simp only [Vector.getElem_set, BitVec.toNat_inj, eq_comm]

@[simp] theorem State.reg_setReg_self (s : State) (x : Nibble) (b : Byte) : (s.setReg x b).reg x = b := by
  simp [State.reg_setReg]

theorem State.reg_setReg_ne (s : State) {x y : Nibble} (h : y ≠ x) (b : Byte) : (s.setReg x b).reg y = s.reg y := by
  simp [State.reg_setReg, h]

theorem State.reg_setFlag (s : State) (y : Nibble) (f : Byte) :
    (s.setFlag f).reg y = if y = vf then f else s.reg y := State.reg_setReg s vf y f

@[simp] theorem State.reg_setI (s : State) (w : Word) (y : Nibble) : (s.setI w).reg y = s.reg y := rfl
@[simp] theorem State.reg_jump (s : State) (w : Word) (y : Nibble) : (s.jump w).reg y = s.reg y := rfl
@[simp] theorem State.reg_advance (s : State) (y : Nibble) : s.advance.reg y = s.reg y := rfl
@[simp] theorem State.reg_skipIf (s : State) (c : Bool) (y : Nibble) : (s.skipIf c).reg y = s.reg y := rfl
@[simp] theorem State.reg_memWrite (s : State) (a : Addr) (b : Byte) (y : Nibble) :
    (s.memWrite a b).reg y = s.reg y := rfl

/-! Memory reads and effective addresses look at their own part of the state only. -/

theorem State.memRead_congr {s t : State} (h : t.mem = s.mem) (a : Addr) : t.memRead a = s.memRead a := by
  simp [State.memRead, h]

@[simp] theorem State.memRead_setReg (s : State) (x : Nibble) (b : Byte) (a : Addr) :
    (s.setReg x b).memRead a = s.memRead a := rfl
@[simp] theorem State.memRead_setFlag (s : State) (f : Byte) (a : Addr) : (s.setFlag f).memRead a = s.memRead a := rfl
@[simp] theorem State.memRead_setI (s : State) (w : Word) (a : Addr) : (s.setI w).memRead a = s.memRead a := rfl
@[simp] theorem State.memRead_jump (s : State) (w : Word) (a : Addr) : (s.jump w).memRead a = s.memRead a := rfl
@[simp] theorem State.memRead_advance (s : State) (a : Addr) : s.advance.memRead a = s.memRead a := rfl
@[simp] theorem State.memRead_skipIf (s : State) (c : Bool) (a : Addr) : (s.skipIf c).memRead a = s.memRead a := rfl

theorem State.toNat_ea (s : State) (k : Nat) : (s.ea k).toNat = (s.i.toNat + k) % 4096 := by
  simp [State.ea]

theorem State.ea_congr {s t : State} (h : t.i = s.i) (k : Nat) : t.ea k = s.ea k := by simp [State.ea, h]

/-- The addresses of one transfer are pairwise distinct (R54). -/
theorem State.ea_inj (s : State) {j k : Nat} (hj : j < 4096) (hk : k < 4096) : s.ea j = s.ea k ↔ j = k := by
  refine ⟨fun h => ?_, fun h => by rw [h]⟩
  have := congrArg BitVec.toNat h
  rw [State.toNat_ea, State.toNat_ea] at this
  omega

/-! The transfers of FX55 and FX65. -/

theorem State.storeUpTo_eq (s : State) (n : Nat) : s.storeUpTo n = { s with mem := (s.storeUpTo n).mem } := by
  induction n with
  | zero => rfl
  | succ n ih => rw [State.storeUpTo, ih]; rfl

theorem State.memRead_storeUpTo (s : State) {n : Nat} (hn : n ≤ 16) (a : Addr) :
    (∀ k < n, a ≠ s.ea k) → (s.storeUpTo n).memRead a = s.memRead a := by
  induction n with
  | zero => intro _; rfl
  | succ n ih =>
    intro h
    rw [State.storeUpTo, State.memRead_memWrite, if_neg (h n (by omega)), ih (by omega) fun k hk => h k (by omega)]

theorem State.memRead_storeUpTo_ea (s : State) {n k : Nat} (hn : n ≤ 16) (hk : k < n) :
    (s.storeUpTo n).memRead (s.ea k) = s.reg (BitVec.ofNat 4 k) := by
  induction n with
  | zero => omega
  | succ n ih =>
    rw [State.storeUpTo, State.memRead_memWrite]
    by_cases h : k = n
    · rw [if_pos (by rw [h]), h]
    · rw [if_neg (by rwa [State.ea_inj s (by omega) (by omega)]), ih (by omega) (by omega)]

theorem State.wf_storeUpTo {s : State} (h : s.mem.wf) (n : Nat) : (s.storeUpTo n).mem.wf := by
  induction n with
  | zero => exact h
  | succ n ih => exact State.wf_memWrite ih _ _

theorem State.loadUpTo_eq (s : State) (n : Nat) : s.loadUpTo n = { s with v := (s.loadUpTo n).v } := by
  induction n with
  | zero => rfl
  | succ n ih => rw [State.loadUpTo, ih]; rfl

theorem State.reg_loadUpTo (s : State) {n : Nat} (hn : n ≤ 16) (x : Nibble) :
    (s.loadUpTo n).reg x = if x.toNat < n then s.memRead (s.ea x.toNat) else s.reg x := by
  induction n with
  | zero => rfl
  | succ n ih =>
    rw [State.loadUpTo, State.reg_setReg]
    by_cases hx : x = BitVec.ofNat 4 n
    · have hn' : x.toNat = n := by
        rw [hx, BitVec.toNat_ofNat]
        omega
      rw [if_pos hx, if_pos (by omega), hn']
    · have hn' : x.toNat ≠ n := by
        intro h
        exact hx (by rw [← h, BitVec.ofNat_toNat, BitVec.setWidth_eq])
      rw [if_neg hx, ih (by omega)]
      by_cases hlt : x.toNat < n
      · rw [if_pos hlt, if_pos (by omega)]
      · rw [if_neg hlt, if_neg (by omega)]

/-! The stack (R27). -/

theorem State.push_ok {s t : State} {w : Word} :
    s.push w = .ok t ↔
      s.sp ≠ 15 ∧ t = { s with sp := s.sp + 1, stack := s.stack.set (s.sp + 1).toNat w (nibble_lt _) } := by
  unfold State.push
  by_cases h : s.sp = 15
  · rw [if_pos h]
    exact ⟨fun h' => (by cases h'), fun h' => absurd h h'.1⟩
  · rw [if_neg h]
    exact ⟨fun h' => ⟨h, by cases h'; rfl⟩, fun h' => by rw [h'.2]⟩

theorem State.push_error {s : State} {w : Word} {e : FatalError} :
    s.push w = .error e ↔ s.sp = 15 ∧ e = .stackOverflow := by
  unfold State.push
  by_cases h : s.sp = 15
  · rw [if_pos h]
    exact ⟨fun h' => ⟨h, by cases h'; rfl⟩, fun h' => by rw [h'.2]⟩
  · rw [if_neg h]
    exact ⟨fun h' => (by cases h'), fun h' => absurd h'.1 h⟩

theorem State.pop_ok {s : State} {p : Word × State} :
    s.pop = .ok p ↔ s.sp ≠ 0 ∧ p = (s.slot s.sp, { s with sp := s.sp - 1 }) := by
  unfold State.pop
  by_cases h : s.sp = 0
  · rw [if_pos h]
    exact ⟨fun h' => (by cases h'), fun h' => absurd h h'.1⟩
  · rw [if_neg h]
    exact ⟨fun h' => ⟨h, by cases h'; rfl⟩, fun h' => by rw [h'.2]⟩

theorem State.pop_error {s : State} {e : FatalError} : s.pop = .error e ↔ s.sp = 0 ∧ e = .stackUnderflow := by
  unfold State.pop
  by_cases h : s.sp = 0
  · rw [if_pos h]
    exact ⟨fun h' => ⟨h, by cases h'; rfl⟩, fun h' => by rw [h'.2]⟩
  · rw [if_neg h]
    exact ⟨fun h' => (by cases h'), fun h' => absurd h'.1 h⟩

/-- 00EE whole: an error at `SP = 0`, else the return. -/
theorem execRet_eq (s : State) :
    execRet s = if s.sp = 0 then raise .stackUnderflow s
      else .next { s with sp := s.sp - 1, pc := s.slot s.sp + 2 } := by
  unfold execRet State.pop
  by_cases h : s.sp = 0
  · rw [if_pos h, if_pos h]; rfl
  · rw [if_neg h, if_neg h]; rfl

/-- 2NNN whole: an error at `SP = 15`, else the call. -/
theorem execCall_eq (nnn : Addr) (s : State) :
    execCall nnn s = if s.sp = 15 then raise .stackOverflow s
      else .next { s with
        sp := s.sp + 1
        stack := s.stack.set (s.sp + 1).toNat s.pc (nibble_lt _)
        pc := zextAddr nnn } := by
  unfold execCall State.push
  by_cases h : s.sp = 15
  · rw [if_pos h, if_pos h]; rfl
  · rw [if_neg h, if_neg h]; rfl

theorem State.slot_set (s : State) (n m : Nibble) (w : Word) :
    ({ s with stack := s.stack.set n.toNat w (nibble_lt n) } : State).slot m = if m = n then w else s.slot m := by
  unfold State.slot
  simp only [Vector.getElem_set, BitVec.toNat_inj, eq_comm]

/-! Keys. -/

theorem anyKey_iff {key : Vector Bool 16} : anyKey key = true ↔ ∃ k : Nibble, key[k.toNat]'(nibble_lt k) = true := by
  unfold anyKey
  simp only [List.any_eq_true, Vector.mem_toList_iff, id_eq]
  constructor
  · rintro ⟨b, hb, rfl⟩
    obtain ⟨j, hj, hk⟩ := Vector.mem_iff_getElem.1 hb
    exact ⟨BitVec.ofNat 4 j, by simpa [Nat.mod_eq_of_lt hj] using hk⟩
  · rintro ⟨k, hk⟩
    exact ⟨_, Vector.getElem_mem (nibble_lt k), hk⟩

/-- Whatever the selection, FX0A takes no key exactly when none is pressed. -/
theorem keySelWith_none {sel : Vector Bool 16 → Nibble} {key : Vector Bool 16} :
    keySelWith sel key = none ↔ ∀ k : Nibble, key[k.toNat]'(nibble_lt k) = false := by
  unfold keySelWith
  by_cases h : anyKey key = true
  · obtain ⟨k, hk⟩ := anyKey_iff.1 h
    rw [if_pos h]
    exact ⟨fun h' => (by cases h'), fun h' => absurd (h' k) (by simp [hk])⟩
  · rw [if_neg h]
    refine ⟨fun _ k => ?_, fun _ => rfl⟩
    by_contra hk
    exact h (anyKey_iff.2 ⟨k, by simpa using hk⟩)

/-- Otherwise it takes the selection's key. -/
theorem keySelWith_some {sel : Vector Bool 16 → Nibble} {key : Vector Bool 16} {k : Nibble} :
    keySelWith sel key = some k ↔ anyKey key = true ∧ sel key = k := by
  unfold keySelWith
  by_cases h : anyKey key = true <;> simp [h]

theorem keySel_none {key : Vector Bool 16} : keySel key = none ↔ ∀ k : Nibble, key[k.toNat]'(nibble_lt k) = false :=
  keySelWith_none

/-- The spec's selection takes the lowest pressed key. -/
theorem keySel_some {key : Vector Bool 16} {k : Nibble} :
    keySel key = some k ↔
      key[k.toNat]'(nibble_lt k) = true ∧ ∀ j : Nibble, j < k → key[j.toNat]'(nibble_lt j) = false := by
  unfold keySel
  rw [keySelWith_some]
  constructor
  · rintro ⟨h, rfl⟩
    have hlt : key.toList.findIdx id < 16 := by
      have := List.findIdx_lt_length.2 (List.any_eq_true.1 h)
      simpa using this
    have hn : (lowestKey key).toNat = key.toList.findIdx id := by
      simp [lowestKey, Nat.mod_eq_of_lt hlt]
    refine ⟨?_, fun j hj => ?_⟩
    · simp only [hn]
      have ht := List.findIdx_getElem (xs := key.toList) (p := id) (w := by rw [Vector.length_toList]; exact hlt)
      simpa only [Vector.getElem_toList, id_eq] using ht
    · have hjn : j.toNat < key.toList.findIdx id := by
        rw [← hn]
        exact BitVec.lt_def.1 hj
      simpa using List.not_of_lt_findIdx hjn
  · rintro ⟨ht, hf⟩
    refine ⟨anyKey_iff.2 ⟨k, ht⟩, ?_⟩
    have hn : key.toList.findIdx id = k.toNat := by
      rw [List.findIdx_eq (by simpa using nibble_lt k)]
      refine ⟨by simpa using ht, fun j hj => ?_⟩
      have hj16 : j < 16 := lt_trans hj (nibble_lt k)
      have := hf (BitVec.ofNat 4 j) (by rw [BitVec.lt_def]; simpa [Nat.mod_eq_of_lt hj16] using hj)
      simpa [Nat.mod_eq_of_lt hj16] using this
    rw [lowestKey, hn]
    simp

/-- The spec's selection takes a pressed key when there is one. -/
theorem lowestKey_pressed {key : Vector Bool 16} (h : anyKey key = true) :
    key[(lowestKey key).toNat]'(nibble_lt _) = true :=
  (keySel_some.1 (keySelWith_some.2 ⟨h, rfl⟩)).1

/-! The three transfers: what changes besides the bytes and registers they move. -/

theorem execLdB_eq (x : Nibble) (s : State) :
    ∃ m, execLdB x s = .next { s with mem := m, pc := s.pc + 2 } ∧ (s.mem.wf → m.wf) :=
  ⟨_, rfl, fun h => State.wf_memWrite (State.wf_memWrite (State.wf_memWrite h _ _) _ _) _ _⟩

theorem execStoreRegs_eq (x : Nibble) (s : State) :
    ∃ m, execStoreRegs x s = .next { s with mem := m, pc := s.pc + 2 } ∧ (s.mem.wf → m.wf) := by
  refine ⟨(s.storeUpTo (x.toNat + 1)).mem, ?_, fun h => State.wf_storeUpTo h _⟩
  rw [execStoreRegs, State.storeUpTo_eq]
  rfl

theorem execLoadRegs_eq (x : Nibble) (s : State) :
    ∃ v, execLoadRegs x s = .next { s with v := v, pc := s.pc + 2 } := by
  refine ⟨(s.loadUpTo (x.toNat + 1)).v, ?_⟩
  rw [execLoadRegs, State.loadUpTo_eq]
  rfl

/-! Fetch (R85). It looks at `pc` and memory only. -/

theorem State.fetch_congr {s t : State} (hpc : t.pc = s.pc) (hm : t.mem = s.mem) : t.fetch = s.fetch := by
  unfold State.fetch State.memRead
  rw [hpc, hm]

theorem State.fetchInstrWith_congr {strict : Bool} {s t : State} (hpc : t.pc = s.pc) (hm : t.mem = s.mem) :
    t.fetchInstrWith strict = s.fetchInstrWith strict := by
  unfold State.fetchInstrWith
  rw [State.fetch_congr hpc hm]

theorem State.fetchInstr_congr {s t : State} (hpc : t.pc = s.pc) (hm : t.mem = s.mem) :
    t.fetchInstr = s.fetchInstr := State.fetchInstrWith_congr hpc hm

theorem State.fetch_ok {s : State} {op : Word} :
    s.fetch = .ok op ↔ s.pc.toNat ≤ 0xFFE ∧
      wordOfBytes (s.memRead (BitVec.ofNat 12 s.pc.toNat)) (s.memRead (BitVec.ofNat 12 (s.pc.toNat + 1))) = op := by
  unfold State.fetch
  by_cases h : Config.lastFetch < s.pc.toNat
  · rw [if_pos h]
    constructor
    · intro h'; exact absurd h' (by simp)
    · rintro ⟨h', -⟩
      exact absurd h (by simpa using h')
  · rw [if_neg h]
    have : s.pc.toNat ≤ 0xFFE := by simpa using h
    simp [this]

theorem State.fetch_error {s : State} {e : FatalError} :
    s.fetch = .error e ↔ 0xFFE < s.pc.toNat ∧ e = .outOfBounds := by
  unfold State.fetch
  by_cases h : Config.lastFetch < s.pc.toNat
  · rw [if_pos h]
    exact ⟨fun h' => ⟨h, by cases h'; rfl⟩, fun h' => by rw [h'.2]⟩
  · rw [if_neg h]
    exact ⟨fun h' => (by cases h'), fun h' => absurd h'.1 h⟩

theorem State.fetchInstrWith_ok {strict : Bool} {s : State} {i : Instr} :
    s.fetchInstrWith strict = .ok i ↔ ∃ op, s.fetch = .ok op ∧ decodeWith strict op = .ok i := by
  unfold State.fetchInstrWith
  cases s.fetch with
  | error e => simp
  | ok op => cases h : decodeWith strict op <;> simp [h]

theorem State.fetchInstr_ok {s : State} {i : Instr} :
    s.fetchInstr = .ok i ↔ ∃ op, s.fetch = .ok op ∧ decode op = .ok i := State.fetchInstrWith_ok

theorem State.pc_le_of_fetchInstr {s : State} {i : Instr} (h : s.fetchInstr = .ok i) : s.pc.toNat ≤ 0xFFE := by
  obtain ⟨op, hf, -⟩ := State.fetchInstr_ok.1 h
  exact (State.fetch_ok.1 hf).1

/-- The cause of an error is a matter of `pc`, memory and SP (R205 to R208). -/
theorem State.cause_congr {s t : State} (hpc : t.pc = s.pc) (hm : t.mem = s.mem) (hsp : t.sp = s.sp) :
    t.cause = s.cause := by
  unfold State.cause
  rw [State.fetchInstr_congr hpc hm, hsp]

end Sys2Proof.Machine
end

