-- ==== Sys2Proof/Laws/Step.lean ====
section
/-! SUPPORT. What one step can do, said once: the four ways of R86. -/

namespace Sys2Proof.Machine

/-! The shape of a cycle, whatever fetches, polls and executes. -/

section Cycle

variable {fetch : State → Except FatalError Instr} {poll : State → Result} {run : Instr → State → Result}

theorem cycleOf_of_stopped {s : State} (h : s.Stopped) : cycleOf fetch poll run s = .next s := by
  unfold cycleOf
  cases he : s.err with
  | none => exact absurd he h
  | some e => rfl

theorem cycleOf_of_waiting {s : State} (h : s.Waiting) : cycleOf fetch poll run s = poll s := by
  unfold cycleOf
  rw [h.1]
  simp [h.2]

theorem cycleOf_of_error {s : State} (h : s.Running) {e : FatalError} (he : fetch s = .error e) :
    cycleOf fetch poll run s = raise e s := by
  unfold cycleOf
  rw [h.1, he]
  simp [h.2]

theorem cycleOf_of_instr {s : State} (h : s.Running) {i : Instr} (hi : fetch s = .ok i) :
    cycleOf fetch poll run s = run i s := by
  unfold cycleOf
  rw [h.1, hi]
  simp [h.2]

/-- Everything a cycle that answers `t` can have done. -/
theorem cycleOf_cases {s t : State} (h : cycleOf fetch poll run s = .next t) :
    (s.Stopped ∧ t = s) ∨
    (s.Waiting ∧ poll s = .next t) ∨
    (s.Running ∧ ∃ e, fetch s = .error e ∧ t = { s with err := some e }) ∨
    (s.Running ∧ ∃ i, fetch s = .ok i ∧ run i s = .next t) := by
  cases he : s.err with
  | some e =>
    have hs : s.Stopped := by simp [State.Stopped, he]
    rw [cycleOf_of_stopped hs] at h
    exact .inl ⟨hs, (Host.Outcome.next.inj h).symm⟩
  | none =>
    by_cases hw : s.wait = true
    · exact .inr (.inl ⟨⟨he, hw⟩, by rw [cycleOf_of_waiting ⟨he, hw⟩] at h; exact h⟩)
    · have hr : s.Running := ⟨he, by simpa using hw⟩
      cases hf : fetch s with
      | error e =>
        rw [cycleOf_of_error hr hf] at h
        exact .inr (.inr (.inl ⟨hr, e, rfl, (Host.Outcome.next.inj h).symm⟩))
      | ok i => exact .inr (.inr (.inr ⟨hr, i, rfl, by rw [cycleOf_of_instr hr hf] at h; exact h⟩))

end Cycle

/-! The two ways of FX0A and of the waiting cycle (R185). -/

theorem pollKey_eq (s : State) :
    (keySel s.key = none ∧ pollKey s = .next s) ∨
    ∃ k, keySel s.key = some k ∧
      pollKey s = .next { (s.setReg s.waitX (zextNibble k)).advance with wait := false } := by
  unfold pollKey pollKeyWith keySel
  cases h : keySelWith lowestKey s.key with
  | none => exact .inl ⟨rfl, rfl⟩
  | some k => exact .inr ⟨k, rfl, rfl⟩

theorem execLdVxK_eq (x : Nibble) (s : State) :
    (keySel s.key = none ∧ execLdVxK x s = .next { s with wait := true, waitX := x }) ∨
    ∃ k, keySel s.key = some k ∧ execLdVxK x s = .next (s.setReg x (zextNibble k)).advance := by
  unfold execLdVxK execLdVxKWith keySel
  cases h : keySelWith lowestKey s.key with
  | none => exact .inl ⟨rfl, rfl⟩
  | some k => exact .inr ⟨k, rfl, rfl⟩

/-! The step. -/

theorem step_of_stopped {s : State} (h : s.Stopped) : step s = .next s := cycleOf_of_stopped h

theorem step_of_waiting {s : State} (h : s.Waiting) : step s = pollKey s := cycleOf_of_waiting h

theorem step_of_fetch_error {s : State} (h : s.Running) {e : FatalError} (he : s.fetchInstr = .error e) :
    step s = raise e s := cycleOf_of_error h he

theorem step_of_instr {s : State} (h : s.Running) {i : Instr} (hi : s.fetchInstr = .ok i) : step s = exec i s :=
  cycleOf_of_instr h hi

/-- Everything a step that answers `t` can have done. -/
theorem step_cases {s t : State} (h : step s = .next t) :
    (s.Stopped ∧ t = s) ∨
    (s.Waiting ∧ pollKey s = .next t) ∨
    (s.Running ∧ ∃ e, s.fetchInstr = .error e ∧ t = { s with err := some e }) ∨
    (s.Running ∧ ∃ i, s.fetchInstr = .ok i ∧ exec i s = .next t) :=
  cycleOf_cases h

end Sys2Proof.Machine
end

