-- ==== Sys2Proof/Laws/Open.lean ====
section
/-! SUPPORT. The machine with the open parameters of R6 as an argument: what they can change, and that the values of
R6's third column give the machine of `step`. -/

namespace Sys2Proof.Machine

/-! The parameters of the spec, one by one. -/

@[simp] theorem Params.font_spec : Params.spec.font = Machine.font := rfl
@[simp] theorem Params.keySel_spec : Params.spec.keySel = lowestKey := rfl
@[simp] theorem Params.subEqVf_spec : Params.spec.subEqVf = Machine.subEqVf := rfl
@[simp] theorem Params.strictDecode_spec : Params.spec.strictDecode = Machine.strictDecode := rfl
@[simp] theorem Params.code_spec : Params.spec.code = FatalError.code := rfl
@[simp] theorem Params.tooLargeCode_spec : Params.spec.tooLargeCode = programTooLargeCode := rfl

/-! What a parameter can change. -/

/-- 8XY5 and 8XY7 read SUB_EQ_VF only on equal operands. -/
theorem noBorrowFlagWith_ne {a b : Byte} (h : a ≠ b) (eqVf : Byte) : noBorrowFlagWith eqVf a b = noBorrowFlag a b := by
  simp [noBorrowFlag, noBorrowFlagWith, h]

@[simp] theorem execWith_spec (i : Instr) (s : State) : execWith .spec i s = exec i s := by
  cases i <;> rfl

/-- Writing bytes changes memory and nothing else. -/
theorem writeBytes_eq (bytes : List Byte) (s : State) (a : Nat) :
    writeBytes s a bytes = { s with mem := (writeBytes s a bytes).mem } := by
  induction bytes generalizing s a with
  | nil => rfl
  | cons b bs ih =>
    rw [writeBytes, ih]
    rfl

theorem wf_writeBytes {s : State} (h : s.mem.wf) (bytes : List Byte) (a : Nat) : (writeBytes s a bytes).mem.wf := by
  induction bytes generalizing s a with
  | nil => exact h
  | cons b bs ih => exact ih (State.wf_memWrite h _ _) _

theorem memRead_writeBytes (bytes : List Byte) (s : State) (n : Nat) (a : Addr) (hn : n + bytes.length ≤ 4096) :
    (writeBytes s n bytes).memRead a =
      if n ≤ a.toNat ∧ a.toNat < n + bytes.length then bytes.getD (a.toNat - n) 0 else s.memRead a := by
  induction bytes generalizing s n with
  | nil => rw [if_neg (by simp)]; rfl
  | cons b bs ih =>
    simp only [List.length_cons] at hn ⊢
    rw [writeBytes, ih _ _ (by omega), State.memRead_memWrite]
    by_cases h1 : a.toNat = n
    · have : a = BitVec.ofNat 12 n := BitVec.eq_of_toNat_eq (by simp; omega)
      rw [if_neg (by omega), if_pos this, if_pos (by omega), h1]
      simp
    · have : a ≠ BitVec.ofNat 12 n := fun h => h1 (by rw [h]; simp; omega)
      rw [if_neg this]
      by_cases h2 : n + 1 ≤ a.toNat ∧ a.toNat < n + 1 + bs.length
      · rw [if_pos h2, if_pos (by omega), show a.toNat - n = a.toNat - (n + 1) + 1 by omega]
        simp
      · rw [if_neg h2, if_neg (by omega)]

theorem resetWith_spec : State.resetWith font = State.reset := by decide

end Sys2Proof.Machine
end

