-- ==== Sys2Proof/Laws/PerInstr.lean ====
section
/-! SUPPORT. A statement made per instruction: the word the encoder gives an instruction is spelled by the
instruction's own row of the opcode map (R75). -/

namespace Sys2Proof.Laws.MatchesRow

/-- The encoded word, masked as the instruction's row says, is the row's pattern. -/
def Statement (i : Instr) : Prop := i.row.spells (encode i) = true

/-- A row spells a word of four nibbles when each nibble, masked, is the pattern's. -/
theorem spells_nibbles {r : Row} (p x y n mp mx my mn : Nibble)
    (hm : r.mask = (mp ++ (mx ++ (my ++ mn)) : Word))
    (hr : r.pattern = ((p &&& mp) ++ ((x &&& mx) ++ ((y &&& my) ++ (n &&& mn))) : Word)) :
    r.spells (p ++ (x ++ (y ++ n)) : Word) = true := by
  refine beq_iff_eq.2 ?_
  rw [hm, hr]
  exact and_nibbles ..

/-- Format A (R72). -/
theorem spells_encodeA {r : Row} (p : Nibble) (nnn : Addr) (hm : r.mask = 0xF000)
    (hr : r.pattern = (p ++ ((0 : Nibble) ++ ((0 : Nibble) ++ (0 : Nibble))) : Word)) :
    r.spells (encodeA p nnn) = true := by
  obtain ⟨x, y, n, rfl⟩ := addr_eq_nibbles nnn
  exact spells_nibbles p x y n 0xF 0 0 0 hm (by rw [hr]; simp)

/-- Format RI (R72). -/
theorem spells_encodeRI {r : Row} (p x : Nibble) (kk : Byte) (hm : r.mask = 0xF000)
    (hr : r.pattern = (p ++ ((0 : Nibble) ++ ((0 : Nibble) ++ (0 : Nibble))) : Word)) :
    r.spells (encodeRI p x kk) = true := by
  obtain ⟨y, n, rfl⟩ := byte_eq_nibbles kk
  exact spells_nibbles p x y n 0xF 0 0 0 hm (by rw [hr]; simp)

/-- Format RR (R72). -/
theorem spells_encodeRR {r : Row} (p x y n : Nibble) (hm : r.mask = 0xF00F)
    (hr : r.pattern = (p ++ ((0 : Nibble) ++ ((0 : Nibble) ++ n)) : Word)) :
    r.spells (encodeRRN p x y n) = true :=
  spells_nibbles p x y n 0xF 0 0 0xF hm (by rw [hr]; simp)

/-- Format R (R72): the low byte is fixed. -/
theorem spells_encodeR {r : Row} (p x y n : Nibble) (hm : r.mask = 0xF0FF)
    (hr : r.pattern = (p ++ ((0 : Nibble) ++ (y ++ n)) : Word)) :
    r.spells (encodeRI p x (y ++ n)) = true :=
  spells_nibbles p x y n 0xF 0 0xF 0xF hm (by rw [hr]; simp)

theorem cls : Statement .cls :=
  rfl

theorem ret : Statement .ret :=
  rfl

theorem jp (nnn : Addr) : Statement (.jp nnn) :=
  spells_encodeA 0x1 nnn rfl rfl

theorem call (nnn : Addr) : Statement (.call nnn) :=
  spells_encodeA 0x2 nnn rfl rfl

theorem seImm (x : Nibble) (kk : Byte) : Statement (.seImm x kk) :=
  spells_encodeRI 0x3 x kk rfl rfl

theorem sneImm (x : Nibble) (kk : Byte) : Statement (.sneImm x kk) :=
  spells_encodeRI 0x4 x kk rfl rfl

theorem seReg (x : Nibble) (y : Nibble) : Statement (.seReg x y) :=
  spells_encodeRR 0x5 x y 0x0 rfl rfl

theorem ldImm (x : Nibble) (kk : Byte) : Statement (.ldImm x kk) :=
  spells_encodeRI 0x6 x kk rfl rfl

theorem addImm (x : Nibble) (kk : Byte) : Statement (.addImm x kk) :=
  spells_encodeRI 0x7 x kk rfl rfl

theorem ldReg (x : Nibble) (y : Nibble) : Statement (.ldReg x y) :=
  spells_encodeRR 0x8 x y 0x0 rfl rfl

theorem orReg (x : Nibble) (y : Nibble) : Statement (.orReg x y) :=
  spells_encodeRR 0x8 x y 0x1 rfl rfl

theorem andReg (x : Nibble) (y : Nibble) : Statement (.andReg x y) :=
  spells_encodeRR 0x8 x y 0x2 rfl rfl

theorem xorReg (x : Nibble) (y : Nibble) : Statement (.xorReg x y) :=
  spells_encodeRR 0x8 x y 0x3 rfl rfl

theorem addReg (x : Nibble) (y : Nibble) : Statement (.addReg x y) :=
  spells_encodeRR 0x8 x y 0x4 rfl rfl

theorem sub (x : Nibble) (y : Nibble) : Statement (.sub x y) :=
  spells_encodeRR 0x8 x y 0x5 rfl rfl

theorem shr (x : Nibble) (y : Nibble) : Statement (.shr x y) :=
  spells_encodeRR 0x8 x y 0x6 rfl rfl

theorem subn (x : Nibble) (y : Nibble) : Statement (.subn x y) :=
  spells_encodeRR 0x8 x y 0x7 rfl rfl

theorem shl (x : Nibble) (y : Nibble) : Statement (.shl x y) :=
  spells_encodeRR 0x8 x y 0xE rfl rfl

theorem sneReg (x : Nibble) (y : Nibble) : Statement (.sneReg x y) :=
  spells_encodeRR 0x9 x y 0x0 rfl rfl

theorem ldI (nnn : Addr) : Statement (.ldI nnn) :=
  spells_encodeA 0xA nnn rfl rfl

theorem jpV0 (nnn : Addr) : Statement (.jpV0 nnn) :=
  spells_encodeA 0xB nnn rfl rfl

theorem rnd (x : Nibble) (kk : Byte) : Statement (.rnd x kk) :=
  spells_encodeRI 0xC x kk rfl rfl

theorem drw (x : Nibble) (y : Nibble) (n : Nibble) : Statement (.drw x y n) :=
  spells_nibbles 0xD x y n 0xF 0 0 0 rfl (by simp [Instr.row])

theorem skp (x : Nibble) : Statement (.skp x) :=
  spells_encodeR 0xE x 0x9 0xE rfl rfl

theorem sknp (x : Nibble) : Statement (.sknp x) :=
  spells_encodeR 0xE x 0xA 0x1 rfl rfl

theorem ldVxDT (x : Nibble) : Statement (.ldVxDT x) :=
  spells_encodeR 0xF x 0x0 0x7 rfl rfl

theorem ldVxK (x : Nibble) : Statement (.ldVxK x) :=
  spells_encodeR 0xF x 0x0 0xA rfl rfl

theorem ldDTVx (x : Nibble) : Statement (.ldDTVx x) :=
  spells_encodeR 0xF x 0x1 0x5 rfl rfl

theorem ldSTVx (x : Nibble) : Statement (.ldSTVx x) :=
  spells_encodeR 0xF x 0x1 0x8 rfl rfl

theorem addI (x : Nibble) : Statement (.addI x) :=
  spells_encodeR 0xF x 0x1 0xE rfl rfl

theorem ldF (x : Nibble) : Statement (.ldF x) :=
  spells_encodeR 0xF x 0x2 0x9 rfl rfl

theorem ldB (x : Nibble) : Statement (.ldB x) :=
  spells_encodeR 0xF x 0x3 0x3 rfl rfl

theorem storeRegs (x : Nibble) : Statement (.storeRegs x) :=
  spells_encodeR 0xF x 0x5 0x5 rfl rfl

theorem loadRegs (x : Nibble) : Statement (.loadRegs x) :=
  spells_encodeR 0xF x 0x6 0x5 rfl rfl

end Sys2Proof.Laws.MatchesRow
end

