-- ==== Sys2Proof/Tests/Slice0.lean ====
section
/-! SUPPORT. The model's own tests: the well-formedness smoke, decoding of words written out from the encoding table, and
one or two single steps per instruction, expected results from spec/95_test_vectors.md (vector ids in the names) and
the examples of the instruction rules. -/

namespace Sys2Proof.Tests

open Sys2Proof.Machine

/-- The reset state with some registers set. -/
def withRegs (rs : List (Nibble × Byte)) : State := rs.foldl (fun s p => s.setReg p.1 p.2) State.reset

/-- The reset state with some cells written. -/
def withCells (s : State) (cs : List (Addr × Byte)) : State := cs.foldl (fun s p => s.memWrite p.1 p.2) s

/-- A view of the next state, none where there is no next state. -/
def after {α : Type} (r : Result) (view : State → α) : Option α :=
  match r with
  | .next t => some (view t)
  | _ => none

/-- A view of the session and the answer after a transaction. -/
def told {α : Type} (r : Host.Outcome (Session × Answer) Fault Refusal) (view : Session × Answer → α) : Option α :=
  match r with
  | .next z => some (view z)
  | _ => none

/-! Well-formedness: for each check an operand or a word it refuses (R71, R80). No ill-formed `Instr` can be written. -/

theorem test_nibble_refused : (Operand.nibble 16).fits = false ∧ (Operand.nibble 15).fits = true := by decide
theorem test_byte_refused : (Operand.byte 256).fits = false ∧ (Operand.byte 255).fits = true := by decide
theorem test_addr_refused : (Operand.addr 4096).fits = false ∧ (Operand.addr 4095).fits = true := by decide
theorem test_operands_refused : [Operand.nibble 3, Operand.byte 256].all Operand.fits = false := by decide
theorem test_family_0_refused : wordWellFormed 0x0000 = false ∧ wordWellFormed 0x01E0 = false := by decide
theorem test_family_5_refused : wordWellFormed 0x5121 = false ∧ wordWellFormed 0x512F = false := by decide
theorem test_family_8_refused : wordWellFormed 0x8128 = false ∧ wordWellFormed 0x812F = false := by decide
theorem test_family_9_refused : wordWellFormed 0x9121 = false := by decide
theorem test_family_E_refused : wordWellFormed 0xE19F = false ∧ wordWellFormed 0xE1A0 = false := by decide
theorem test_family_F_refused : wordWellFormed 0xF10B = false ∧ wordWellFormed 0xFFFF = false := by decide

/-! Decoding: a word per constructor, its bits written out from the pattern column of R75. -/

theorem test_decode_cls : decode 0b0000000011100000 = .ok .cls := by decide
theorem test_decode_ret : decode 0b0000000011101110 = .ok .ret := by decide
theorem test_decode_jp : decode 0b0001101010111100 = .ok (.jp 0xABC) := by decide
theorem test_decode_call : decode 0b0010001100000000 = .ok (.call 0x300) := by decide
theorem test_decode_seImm : decode 0b0011000100001001 = .ok (.seImm 0x1 0x09) := by decide
theorem test_decode_sneImm : decode 0b0100001000000111 = .ok (.sneImm 0x2 0x07) := by decide
theorem test_decode_seReg : decode 0b0101001101000000 = .ok (.seReg 0x3 0x4) := by decide
theorem test_decode_ldImm : decode 0b0110101000000101 = .ok (.ldImm 0xA 0x05) := by decide
theorem test_decode_addImm : decode 0b0111000111111111 = .ok (.addImm 0x1 0xFF) := by decide
theorem test_decode_ldReg : decode 0b1000101011110000 = .ok (.ldReg 0xA 0xF) := by decide
theorem test_decode_orReg : decode 0b1000000100100001 = .ok (.orReg 0x1 0x2) := by decide
theorem test_decode_andReg : decode 0b1000000100100010 = .ok (.andReg 0x1 0x2) := by decide
theorem test_decode_xorReg : decode 0b1000000100100011 = .ok (.xorReg 0x1 0x2) := by decide
theorem test_decode_addReg : decode 0b1000000100100100 = .ok (.addReg 0x1 0x2) := by decide
theorem test_decode_sub : decode 0b1000000100100101 = .ok (.sub 0x1 0x2) := by decide
theorem test_decode_shr : decode 0b1000000100100110 = .ok (.shr 0x1 0x2) := by decide
theorem test_decode_subn : decode 0b1000000100100111 = .ok (.subn 0x1 0x2) := by decide
theorem test_decode_shl : decode 0b1000001100001110 = .ok (.shl 0x3 0x0) := by decide
theorem test_decode_sneReg : decode 0b1001001101000000 = .ok (.sneReg 0x3 0x4) := by decide
theorem test_decode_ldI : decode 0b1010001100000000 = .ok (.ldI 0x300) := by decide
theorem test_decode_jpV0 : decode 0b1011111111111111 = .ok (.jpV0 0xFFF) := by decide
theorem test_decode_rnd : decode 0b1100001100001111 = .ok (.rnd 0x3 0x0F) := by decide
theorem test_decode_drw : decode 0b1101000100100101 = .ok (.drw 0x1 0x2 0x5) := by decide
theorem test_decode_skp : decode 0b1110111010011110 = .ok (.skp 0xE) := by decide
theorem test_decode_sknp : decode 0b1110001010100001 = .ok (.sknp 0x2) := by decide
theorem test_decode_ldVxDT : decode 0b1111001000000111 = .ok (.ldVxDT 0x2) := by decide
theorem test_decode_ldVxK : decode 0b1111000100001010 = .ok (.ldVxK 0x1) := by decide
theorem test_decode_ldDTVx : decode 0b1111000000010101 = .ok (.ldDTVx 0x0) := by decide
theorem test_decode_ldSTVx : decode 0b1111001100011000 = .ok (.ldSTVx 0x3) := by decide
theorem test_decode_addI : decode 0b1111001000011110 = .ok (.addI 0x2) := by decide
theorem test_decode_ldF : decode 0b1111000000101001 = .ok (.ldF 0x0) := by decide
theorem test_decode_ldB : decode 0b1111000000110011 = .ok (.ldB 0x0) := by decide
theorem test_decode_storeRegs : decode 0b1111001001010101 = .ok (.storeRegs 0x2) := by decide
theorem test_decode_loadRegs : decode 0b1111001001100101 = .ok (.loadRegs 0x2) := by decide

theorem test_encode_words :
    encode (.ldImm 0xA 0x05) = 0x6A05 ∧ encode (.call 0x300) = 0x2300 ∧ encode (.drw 1 2 5) = 0xD125 ∧
      encode (.shr 1 2) = 0x8126 ∧ encode (.skp 0xE) = 0xEE9E := by decide

theorem test_decodeTableWord : decodeTableWord 16 0xF10A = some (.ldVxK 1) ∧ decodeTableWord 16 0x5121 = none := by
  decide

/-- Big-endian fetch: 0x6A, 0x05 is 0x6A05, not 0x056A (R56). -/
theorem test_decodeBytes : decodeBytes 0x6A 0x05 = .ok (.ldImm 0xA 0x05) := by decide

/-- The opcode map has 34 rows (R75). -/
theorem test_opcodeMap_length : opcodeMap.length = 34 := by decide

/-! Reset, fetch, the cycle. -/

theorem test_reset : State.reset.pc = 0x200 ∧ State.reset.sp = 0 ∧ State.reset.err = none := by decide

theorem test_reset_font : State.reset.memRead 0x04B = 0xF0 ∧ State.reset.memRead 0x04F = 0x80 ∧
    State.reset.memRead 0x050 = 0x00 ∧ State.reset.memRead 0x200 = 0x00 := by decide

theorem test_E20_fetch_at_the_top :
    after (step (withCells { State.reset with pc := 0x0FFE } [(0xFFE, 0x6A), (0xFFF, 0x05)]))
      (fun t => (t.reg 0xA, t.pc)) = some (0x05, 0x1000) := by decide

theorem test_E22_fetch_does_not_wrap :
    after (step { State.reset with pc := 0x0FFF }) (fun t => (t.err, t.pc, t.errCode)) =
      some (some .outOfBounds, 0x0FFF, 1) := by decide

theorem test_E23_odd_pc :
    after (step (withCells { State.reset with pc := 0x0201 } [(0x201, 0x6A), (0x202, 0x05)]))
      (fun t => (t.reg 0xA, t.pc)) = some (0x05, 0x0203) := by decide

theorem test_X2_invalid_word :
    after (step State.reset) (fun t => (t.err, t.pc, t.errCode)) = some (some .invalidOpcode, 0x0200, 2) := by decide

theorem test_X6_stopped :
    after (step { State.reset with err := some .invalidOpcode }) id =
      some { State.reset with err := some .invalidOpcode } := by decide

theorem test_withFetchWord :
    after (step (State.reset.withFetchWord 16 0x6A05)) (fun t => (t.reg 0xA, t.pc)) = some (0x05, 0x0202) := by decide

/-! Control transfer. -/

theorem test_F4_jp : after (exec (.jp 0xFFF) State.reset) (fun t => (t.pc, t.err)) = some (0x0FFF, none) := by decide

theorem test_F5_call :
    after (exec (.call 0x300) State.reset) (fun t => (t.sp, t.slot 1, t.slot 0, t.pc)) =
      some (1, 0x0200, 0, 0x0300) := by decide

theorem test_F7_call_overflow :
    after (exec (.call 0x300) { State.reset with sp := 15 }) (fun t => (t.err, t.sp, t.pc)) =
      some (some .stackOverflow, 15, 0x0200) := by decide

theorem test_F9_ret :
    after (exec .ret { State.reset with sp := 1, stack := State.reset.stack.set 1 0x0204 })
      (fun t => (t.pc, t.sp, t.slot 1)) = some (0x0206, 0, 0x0204) := by decide

theorem test_F10_ret_underflow :
    after (exec .ret State.reset) (fun t => (t.err, t.sp, t.pc)) = some (some .stackUnderflow, 0, 0x0200) := by decide

theorem test_F14_jpV0 : after (exec (.jpV0 0xFFF) (withRegs [(0, 0xFF)])) (·.pc) = some 0x10FE := by decide

theorem test_F15_jpV0_is_V0 :
    after (exec (.jpV0 0x201) (withRegs [(0, 0xFF), (2, 0x55)])) (·.pc) = some 0x0300 := by decide

/-! Skips. -/

theorem test_K1_seImm : after (exec (.seImm 0xA 5) (withRegs [(0xA, 5)])) (·.pc) = some 0x0204 := by decide
theorem test_K2_seImm : after (exec (.seImm 0xA 5) (withRegs [(0xA, 6)])) (·.pc) = some 0x0202 := by decide
theorem test_K3_sneImm : after (exec (.sneImm 0xA 5) (withRegs [(0xA, 5)])) (·.pc) = some 0x0202 := by decide
theorem test_K4_sneImm : after (exec (.sneImm 0xA 5) (withRegs [(0xA, 6)])) (·.pc) = some 0x0204 := by decide
theorem test_K5_seReg : after (exec (.seReg 1 2) (withRegs [(1, 7), (2, 7)])) (·.pc) = some 0x0204 := by decide
theorem test_K6_seReg : after (exec (.seReg 1 2) (withRegs [(1, 7), (2, 8)])) (·.pc) = some 0x0202 := by decide
theorem test_K9_sneReg : after (exec (.sneReg 1 2) (withRegs [(1, 7), (2, 8)])) (·.pc) = some 0x0204 := by decide
theorem test_K10_sneReg : after (exec (.sneReg 1 1) (withRegs [(1, 7)])) (·.pc) = some 0x0202 := by decide

/-! Constants. -/

theorem test_C1_ldImm : after (exec (.ldImm 0xA 5) State.reset) (fun t => (t.reg 0xA, t.pc)) = some (5, 0x0202) := by
  decide

theorem test_C3_addImm_wraps :
    after (exec (.addImm 0xA 1) (withRegs [(0xA, 0xFF), (0xF, 0x55)])) (fun t => (t.reg 0xA, t.reg 0xF)) =
      some (0x00, 0x55) := by decide

theorem test_C7_rnd :
    after (rndWith 0xB7 1 0x0F (withRegs [(1, 0xEE)])) (fun t => (t.reg 1, t.pc)) = some (0x07, 0x0202) := by decide

theorem test_C9_cycle_rnd :
    after (cycle 0xB7 (State.reset.withFetchWord 16 0xC1FF)) (fun t => t.reg 1) = some 0xB7 := by decide

/-! Arithmetic and logic. -/

/-- `V1` and `VF` after an instruction. -/
def v1vf (i : Instr) (rs : List (Nibble × Byte)) : Option (Byte × Byte) :=
  after (exec i (withRegs rs)) fun t => (t.reg 1, t.reg 0xF)

theorem test_A1_ldReg : after (exec (.ldReg 0xA 0xF) (withRegs [(0xF, 1), (0xA, 0x77)])) (·.reg 0xA) = some 1 := by
  decide

theorem test_A3_or : v1vf (.orReg 1 2) [(1, 0xF0), (2, 0x3C), (0xF, 9)] = some (0xFC, 9) := by decide
theorem test_A4_and : v1vf (.andReg 1 2) [(1, 0xF0), (2, 0x3C), (0xF, 9)] = some (0x30, 9) := by decide
theorem test_A5_xor : v1vf (.xorReg 1 2) [(1, 0xF0), (2, 0x3C), (0xF, 9)] = some (0xCC, 9) := by decide
theorem test_A10_add : v1vf (.addReg 1 2) [(1, 0xC8), (2, 0x64)] = some (0x2C, 1) := by decide
theorem test_A16_add_vf : v1vf (.addReg 1 0xF) [(1, 0xFF), (0xF, 1)] = some (0x00, 1) := by decide
theorem test_A22_sub_equal : v1vf (.sub 1 2) [(1, 7), (2, 7), (0xF, 1)] = some (0, 0) := by decide
theorem test_A28_sub_vf : v1vf (.sub 1 0xF) [(1, 5), (0xF, 3)] = some (4, 1) := by decide
theorem test_A35_shr : v1vf (.shr 1 2) [(1, 5), (2, 0xAA)] = some (2, 1) := by decide
theorem test_A36_shr_vf : v1vf (.shr 0xF 0) [(0xF, 0xFF)] = some (0, 0) := by decide
theorem test_A40_subn : v1vf (.subn 1 2) [(1, 3), (2, 5)] = some (2, 1) := by decide
theorem test_A48_subn_vf : v1vf (.subn 0xF 1) [(0xF, 3), (1, 9)] = some (9, 8) := by decide
theorem test_A55_shl : v1vf (.shl 1 2) [(1, 0x81), (2, 0xAA)] = some (2, 1) := by decide
theorem test_A56_shl_vf : v1vf (.shl 0xF 0) [(0xF, 0x80)] = some (0, 2) := by decide

/-! Index register and memory. -/

theorem test_M2_ldI : after (exec (.ldI 0xFFF) State.reset) (·.i) = some 0x0FFF := by decide

theorem test_M12_addI :
    after (exec (.addI 2) { withRegs [(2, 1), (0xF, 9)] with i := 0xFFFF }) (fun t => (t.i, t.reg 0xF)) =
      some (0x0000, 9) := by decide

theorem test_M15_ldF : after (exec (.ldF 0) (withRegs [(0, 0x1A)])) (·.i) = some 0x0032 := by decide

theorem test_M24_ldB :
    after (exec (.ldB 0) { withRegs [(0, 0xEA)] with i := 0x300 })
      (fun t => (t.memRead 0x300, t.memRead 0x301, t.memRead 0x302, t.i)) = some (2, 3, 4, 0x300) := by decide

theorem test_M26_ldB_wraps :
    after (exec (.ldB 0) { withRegs [(0, 0x9C)] with i := 0xFFE })
      (fun t => (t.memRead 0xFFE, t.memRead 0xFFF, t.memRead 0x000, t.i)) = some (1, 5, 6, 0xFFE) := by decide

theorem test_M30_storeRegs :
    after (exec (.storeRegs 2) { withRegs [(0, 0x11), (1, 0x22), (2, 0x33), (3, 0x44)] with i := 0x400 })
      (fun t => (t.memRead 0x400, t.memRead 0x401, t.memRead 0x402, t.memRead 0x403, t.i)) =
      some (0x11, 0x22, 0x33, 0x00, 0x400) := by decide

theorem test_M33_storeRegs_font :
    after (exec (.storeRegs 0) State.reset) (fun t => (t.memRead 0, t.memRead 1, t.err)) =
      some (0x00, 0x90, none) := by decide

theorem test_M34_loadRegs :
    after (exec (.loadRegs 2) { withCells (withRegs [(3, 0xAA)]) [(0x300, 2), (0x301, 3), (0x302, 4)] with i := 0x300 })
      (fun t => (t.reg 0, t.reg 1, t.reg 2, t.reg 3, t.i)) = some (2, 3, 4, 0xAA, 0x300) := by decide

theorem test_M35_loadRegs_font :
    after (exec (.loadRegs 2) State.reset) (fun t => (t.reg 0, t.reg 1, t.reg 2)) = some (0xF0, 0x90, 0x90) := by decide

/-! Display. -/

theorem test_D7_drw_collides :
    after (exec (.drw 0 1 1) { withCells State.reset [(0x300, 0xC0)] with
        i := 0x300, fb := setPixel State.reset.fb 1 0 true })
      (fun t => (getPixel t.fb 0 0, getPixel t.fb 1 0, t.reg 0xF, t.redraw)) = some (true, false, 1, true) := by decide

theorem test_D6_drw_vf_coordinate :
    after (exec (.drw 0xF 1 1) { withCells (withRegs [(0xF, 5), (1, 2)]) [(0x300, 0x80)] with i := 0x300 })
      (fun t => (getPixel t.fb 5 2, t.reg 0xF)) = some (true, 0) := by decide

theorem test_D11_cls :
    after (exec .cls { withRegs [(0xF, 3)] with fb := setPixel State.reset.fb 5 5 true })
      (fun t => (getPixel t.fb 5 5, t.reg 0xF, t.redraw, t.pc)) = some (false, 3, true, 0x0202) := by decide

/-! Keys and timers. -/

theorem test_T3_skp_low_nibble :
    after (exec (.skp 2) (setKey 7 true (withRegs [(2, 0x17)]))) (·.pc) = some 0x0204 := by decide

theorem test_T5_sknp : after (exec (.sknp 2) (setKey 7 true (withRegs [(2, 7)]))) (·.pc) = some 0x0202 := by decide

theorem test_T6_ldVxK_lowest :
    after (exec (.ldVxK 5) (setKey 12 true (setKey 9 true State.reset))) (fun t => (t.reg 5, t.pc, t.wait)) =
      some (9, 0x0202, false) := by decide

theorem test_T7_ldVxK_waits :
    after (exec (.ldVxK 0xF) (withRegs [(0xF, 0x77)])) (fun t => (t.wait, t.waitX, t.pc, t.reg 0xF)) =
      some (true, 0xF, 0x0200, 0x77) := by decide

theorem test_T8_wait_ends :
    after (step (setKey 0 true { withRegs [(0xF, 0x77)] with wait := true, waitX := 0xF }))
      (fun t => (t.reg 0xF, t.pc, t.wait)) = some (0x00, 0x0202, false) := by decide

theorem test_T9_ldVxDT :
    after (exec (.ldVxDT 2) { State.reset with dt := 0x39 }) (fun t => (t.reg 2, t.dt)) = some (0x39, 0x39) := by decide

theorem test_T10_ldDTVx :
    after (exec (.ldDTVx 0) { withRegs [(0, 0x3C)] with dt := 7 }) (fun t => (t.dt, t.st)) = some (0x3C, 0) := by decide

theorem test_T11_ldSTVx :
    after (exec (.ldSTVx 3) (withRegs [(3, 5)])) (fun t => (t.st, t.dt)) = some (5, 0) := by decide

/-! Host transactions. -/

theorem test_T12_tickTimers :
    (tickTimers { State.reset with dt := 2, st := 1 }).dt = 1 ∧ (tickTimers { State.reset with dt := 2 }).st = 0 := by
  decide

theorem test_T14_setKey : (setKey 3 false (setKey 3 true State.reset)).key = State.reset.key := by decide

theorem test_T15_consumeRedraw : (consumeRedraw { State.reset with redraw := true }).redraw = false := by decide

theorem test_L3_loadProgram :
    told (transact (.loadProgram [0x12]) ⟨State.reset, .empty⟩) (fun z => (z.1.state.mem, z.1.window, z.2)) =
      some ([(0x200, 0x12)], .loaded, .done) := by decide

theorem test_L5_programTooLarge :
    loadProgram (List.replicate 3585 0xAA) State.reset = .fault (.programTooLarge 3585) := by
  rw [loadProgram, List.length_replicate, if_pos (by decide)]

theorem test_cycle_reports :
    told (transact (.cycle 0) ⟨State.reset, .empty⟩) (fun z => (z.1.window, z.2)) =
      some (.closed, .error ⟨.invalidOpcode, 2, 0x0200, some 0x0000⟩) := by decide

/-- ProgramTooLarge is told with the code 5 of R201. -/
theorem test_too_large_code :
    told (Session.afterLoad Params.spec.tooLargeCode ⟨State.reset, .empty⟩ (.fault (.programTooLarge 3585)))
      (fun z => z.2) = some (.programTooLarge 5 3585) := rfl

/-! The open parameters of R6 at other values. -/

/-- A blank font, VF = 1 on equal operands, lenient decoding, the highest pressed key. -/
def otherParams : Params :=
  { Params.spec with
    font := List.replicate 80 0
    keySel := fun key => BitVec.ofNat 4 (15 - key.toList.reverse.findIdx id)
    subEqVf := 1
    strictDecode := false }

/-- Equal operands: VF takes SUB_EQ_VF (conflict C3). -/
theorem test_SUB_EQ_VF :
    after (execWith otherParams (.sub 1 2) (withRegs [(1, 7), (2, 7)])) (fun t => (t.reg 1, t.reg 0xF)) =
      some (0, 1) := by decide

/-- Without strict decoding 0x512F runs as 5120 and 0x03E0 as 00E0 (decision D3). -/
theorem test_STRICT_DECODE :
    decodeWith false 0x512F = .ok (.seReg 1 2) ∧ decodeWith false 0x03E0 = .ok .cls ∧
      after (stepWith otherParams (State.reset.withFetchWord 16 0x512F)) (fun t => (t.pc, t.err)) =
        some (0x0204, none) := by decide

/-- Keys 9 and 12 pressed: the selection decides (decision D7). -/
theorem test_KEYSEL :
    after (execWith otherParams (.ldVxK 5) (setKey 12 true (setKey 9 true State.reset))) (·.reg 5) = some 12 := by
  decide

/-- The font bytes are those given, the cells above them 0 (decision D10). -/
theorem test_FONT :
    (State.resetWith (List.replicate 80 0x77)).memRead 0x04F = 0x77 ∧
      (State.resetWith (List.replicate 80 0x77)).memRead 0x050 = 0 := by
  constructor <;> (rw [State.resetWith, memRead_writeBytes _ _ _ _ (by decide)]; decide)

theorem test_setKey_above_15 : transact (.setKey 16 true) ⟨State.reset, .empty⟩ = .refused (.keyIndexOutOfRange 16) :=
  rfl

theorem test_late_load : transact (.loadProgram []) ⟨State.reset, .closed⟩ = .refused .loadOutsideLaunchWindow :=
  rfl

/-! Witnesses: for each statement with hypotheses, a concrete state and operands that meet them together, and for a
statement of several clauses one per clause, at the ends of its range. -/

/-- The instruction answers a next state. -/
def completes (s : State) (i : Instr) : Bool := (after (exec i s) fun _ => ()).isSome

/-- Reset with one instruction word at 0x200, high byte first. -/
def withWord (hi lo : Byte) : State := withCells State.reset [(0x200, hi), (0x201, lo)]

/-- Reset in AwaitingKey on the FX0A of V1 at 0x200. -/
def waiting : State := { withWord 0xF1 0x0A with wait := true, waitX := 1 }

/-- Reset stopped by its invalid word 0x0000. -/
def stopped : State := { State.reset with err := some .invalidOpcode }

/-- DecodeEncodeRoundTrip. -/
theorem test_wit_wellFormed : (Instr.drw 0xF 0xF 0xF).WellFormed ∧ (Instr.jp 0xFFF).WellFormed := by decide

/-- InvalidWordsByFamily: a word for each clause about lenient decoding. -/
theorem test_wit_lenient :
    fieldP 0x03E0 = 0 ∧ fieldKK 0x03E0 = 0xE0 ∧ fieldP 0x03EE = 0 ∧ fieldKK 0x03EE = 0xEE ∧ fieldP 0x512F = 5 ∧
      fieldP 0x912F = 9 ∧ decode 0x00E0 = .ok .cls := by decide

/-- EncodeDecodeRoundTrip, also with a non-zero ignored Y. -/
theorem test_wit_decode : decode 0x8AF6 = .ok (.shr 0xA 0xF) := by decide

/-- DecodesExactlyTheMappedWords. -/
theorem test_wit_row : (Instr.shr 0 0).row ∈ opcodeMap ∧ (Instr.shr 0 0).row.spells 0x8AF6 = true := by
  refine ⟨?_, by decide⟩
  unfold opcodeMap
  simp

/-- FetchIsBigEndianAndBounded, both sides of 0xFFE. -/
theorem test_wit_fetch :
    0xFFE < ({ State.reset with pc := 0xFFF } : State).pc.toNat ∧
      ({ State.reset with pc := 0xFFE } : State).pc.toNat ≤ 0xFFE := by decide

/-- StepRunsTheDecodedInstruction, at the highest `pc`. -/
theorem test_wit_step :
    let s := withCells { State.reset with pc := 0xFFE } [(0xFFE, 0x6A), (0xFFF, 0x05)]
    s.err = none ∧ s.wait = false ∧ s.pc.toNat ≤ 0xFFE ∧ (Instr.ldImm 0xA 5).WellFormed ∧
      decodeBytes (s.memRead 0xFFE) (s.memRead 0xFFF) = .ok (.ldImm 0xA 5) := by decide

/-- RaisesExactlyItsCause: each of the four causes, and none. -/
theorem test_wit_causes :
    ({ State.reset with pc := 0xFFF } : State).cause = some .outOfBounds ∧
      State.reset.cause = some .invalidOpcode ∧
      ({ withWord 0x23 0x00 with sp := 15 } : State).cause = some .stackOverflow ∧
      (withWord 0x00 0xEE).cause = some .stackUnderflow ∧ (withWord 0x6A 0x05).cause = none ∧
      (withWord 0x6A 0x05).err = none ∧ (withWord 0x6A 0x05).wait = false := by decide

/-- ErrorChecksInOrder: a fetched word for each of its clauses. -/
theorem test_wit_order :
    State.reset.fetch = .ok 0x0000 ∧ decode 0x0000 = .error (.invalidOpcode 0x0000) ∧
      ({ withWord 0x23 0x00 with sp := 15 } : State).fetch = .ok 0x2300 ∧ decode 0x2300 = .ok (.call 0x300) ∧
      (withWord 0x00 0xEE).fetch = .ok 0x00EE ∧ decode 0x00EE = .ok .ret ∧ (withWord 0x00 0xEE).sp = 0 := by decide

/-- OnlyResetClearsAnError: a stopped machine, and a session that a tick and a cycle leave stopped. -/
theorem test_wit_stopped :
    stopped.err ≠ none ∧ (told (transact .tickTimers ⟨stopped, .closed⟩) fun z => z.1.state.err).isSome = true ∧
      (told (transact (.cycle 0) ⟨stopped, .closed⟩) fun z => z.1.state.err) = some (some .invalidOpcode) := by decide

/-- OnlyResetClearsAnError: a cycle that leaves no error, and one that raises each error, with the fetched word. -/
theorem test_wit_reports :
    told (transact (.cycle 0) ⟨withWord 0x6A 0x05, .loaded⟩) (fun z => z.1.state.err) = some none ∧
      told (transact (.cycle 0) ⟨{ State.reset with pc := 0xFFF }, .loaded⟩) (fun z => z.1.state.err) =
        some (some .outOfBounds) ∧
      told (transact (.cycle 0) ⟨State.reset, .loaded⟩) (fun z => z.1.state.err) = some (some .invalidOpcode) ∧
      State.reset.fetch = .ok 0x0000 ∧
      told (transact (.cycle 0) ⟨{ withWord 0x23 0x00 with sp := 15 }, .loaded⟩) (fun z => z.1.state.err) =
        some (some .stackOverflow) ∧
      told (transact (.cycle 0) ⟨withWord 0x00 0xEE, .loaded⟩) (fun z => z.1.state.err) =
        some (some .stackUnderflow) := by decide

/-- A machine that neither waits nor is stopped meets the last two clauses of the invariant. -/
theorem inv_of_running {s : State} (hr : s.Running) (hm : s.mem.wf) (hp : s.pc.toNat ≤ 0x10FE)
    (hs : ∀ n : Nibble, (s.slot n).toNat ≤ 0xFFE) (h0 : s.slot 0 = 0) : s.Inv :=
  ⟨hm, hp, hs, h0, fun h => (by rw [hr.2] at h; cases h), fun e h => (by rw [hr.1] at h; cases h)⟩

/-- StepKeepsTheInvariant and TransactionsKeepTheInvariant: the highest `pc` the invariant allows, and the top slot full. -/
theorem test_wit_inv_top :
    ({ State.reset with pc := 0x10FE, sp := 15, stack := State.reset.stack.set 15 0xFFE } : State).Inv :=
  inv_of_running ⟨rfl, rfl⟩ (by decide) (by decide) (by decide) (by decide)

/-- TransactionsKeepTheInvariant: a session in the launch window. -/
theorem test_wit_session : (⟨withWord 0x00 0xE0, .loaded⟩ : Session).Inv :=
  ⟨inv_of_running ⟨rfl, rfl⟩ (by decide) (by decide) (by decide) (by decide), fun _ => ⟨rfl, rfl⟩⟩

/-- WaitingIsRefetching, WaitingCyclePollsTheKeys, and the invariants' waiting case. -/
theorem test_wit_waiting : waiting.Inv ∧ waiting.wait = true ∧ waiting.err = none :=
  ⟨⟨by decide, by decide, by decide, by decide, fun _ => ⟨rfl, by decide⟩, fun _ h => by cases h⟩, rfl, rfl⟩

/-- LatchAddsNoBehaviour, and the invariants' stopped case. -/
theorem test_wit_latched : stopped.Inv ∧ stopped.err ≠ none :=
  ⟨⟨by decide, by decide, by decide, by decide, fun h => (by cases h), fun e h => (by cases h; exact ⟨rfl, by decide⟩)⟩,
    by decide⟩

/-- WaitingCyclePollsTheKeys and LdVxKTakesTheLowestKeyOrWaits: no key, and key 15 as the lowest. -/
theorem test_wit_keys :
    (∀ k : Nibble, waiting.key[k.toNat]'(nibble_lt k) = false) ∧
      (setKey 15 true waiting).key[15] = true ∧
      ∀ j : Nibble, j < 15 → (setKey 15 true waiting).key[j.toNat]'(nibble_lt j) = false := by decide

/-- Parameters that are lawful and none of the spec's but the key selection: for every statement that asks for some. -/
theorem test_wit_lawful :
    ({ Params.spec with font := List.replicate 80 0, subEqVf := 1, strictDecode := false } : Params).Lawful :=
  ⟨by decide, fun _ h => lowestKey_pressed h, .inr rfl⟩

/-- SettledMachineStays. -/
theorem test_wit_settled : (withWord 0x12 0x00).Settled := ⟨⟨rfl, rfl⟩, 0x200, by decide, by decide⟩

/-- JpSetsPc. -/
theorem test_wit_jp_self : State.reset.pc.toNat = (0x200 : Addr).toNat ∧ (0xFFF : Addr).toNat = 0xFFF := by decide

/-- Every word of a row: the hypothesis of SpelledBy, with all operand bits 1. -/
theorem test_wit_spelled :
    (0x1FFF : Word) &&& 0xF000 = 0x1000 ∧ (0x8FF4 : Word) &&& 0xF00F = 0x8004 ∧ (0xFF65 : Word) &&& 0xF0FF = 0xF065 ∧
      (0x00EE : Word) &&& 0xFFFF = 0x00EE := by decide

/-- CallPushesItsOwnAddress, RetReturnsAfterTheCall, CallAndRetFrame: SP at 14, 15, 1 and 0. -/
theorem test_wit_sp :
    completes { State.reset with sp := 14 } (.call 0x300) = true ∧
      completes { State.reset with sp := 15 } (.call 0x300) = true ∧
      completes { State.reset with sp := 1 } .ret = true ∧ completes State.reset .ret = true ∧
      ({ State.reset with sp := 14 } : State).sp ≠ 15 ∧ ({ State.reset with sp := 1 } : State).sp ≠ 0 := by decide

/-- RetUndoesCall: the state after the call itself is one of the states it speaks of. -/
theorem test_wit_call_ret : ∃ t, State.reset.sp ≠ 15 ∧ exec (.call 0x300) State.reset = .next t ∧
    t.stack = t.stack ∧ t.sp = t.sp := ⟨_, by decide, rfl, rfl, rfl⟩

/-- JpV0AddsV0: a sum of 0xFFF, the lowest beyond 0xFFE. -/
theorem test_wit_jpV0 :
    State.reset.err = none ∧ State.reset.wait = false ∧
      0xFFE < (0xFFF : Addr).toNat + (State.reset.reg 0).toNat := by decide

/-- ImmediateSkips, RegisterSkips: equal and unequal operands; RegisterSkips: an invalid word of each family. -/
theorem test_wit_skips :
    State.reset.reg 1 = 0 ∧ State.reset.reg 1 ≠ 0xFF ∧ State.reset.reg 1 = State.reset.reg 2 ∧
      (withRegs [(1, 1)]).reg 1 ≠ (withRegs [(1, 1)]).reg 2 ∧
      fieldP 0x5121 = 0x5 ∧ fieldN 0x5121 ≠ 0 ∧ fieldP 0x912F = 0x9 ∧ fieldN 0x912F ≠ 0 := by decide

/-- KeySkips: key 15 named by 0xFF, pressed and not. -/
theorem test_wit_key_skips :
    let s := withRegs [(1, 0xFF)]
    (15 : Nibble).toNat = (s.reg 1).toNat % 16 ∧ s.key[15] = false ∧ (setKey 15 true s).key[15] = true := by decide

/-- LdImmLoads, AddImmAddsWithoutFlag, the ALU statements: X other than F, X = F, and Y = F. -/
theorem test_wit_vf : (0xE : Nibble) ≠ vf ∧ (0xF : Nibble) = vf ∧ (0 : Nibble) ≠ vf := by decide

/-- RndMasksAFreeByte: a running machine on CXKK. -/
theorem test_wit_rnd :
    (withWord 0xC1 0x0F).err = none ∧ (withWord 0xC1 0x0F).wait = false ∧
      (withWord 0xC1 0x0F).fetchInstr = .ok (.rnd 1 0x0F) := by decide

/-- StoreRegsStoresV0ToVX, LoadRegsLoadsV0ToVX: a register at X, one above it, and an address outside the transfer. -/
theorem test_wit_transfer :
    (2 : Nibble) ≤ 2 ∧ (2 : Nibble) < 3 ∧
      ∀ r : Nibble, r ≤ 2 → (3 : Addr) ≠ State.reset.ea r.toNat := by decide

/-- LdBStoresThreeDigits and MemoryTransfersFrame, wrapped at the top: an address outside the three bytes. -/
theorem test_wit_ldB :
    let s : State := { State.reset with i := 0xFFE }
    (1 : Addr) ≠ s.ea 0 ∧ (1 : Addr) ≠ s.ea 1 ∧ (1 : Addr) ≠ s.ea 2 := by decide

/-- StoreThenLoadIsIdentity: the state after the store, its registers cleared. -/
theorem test_wit_store_load : ∃ t u : State, exec (.storeRegs 0xF) (withRegs [(0xF, 9)]) = .next t ∧
    u.mem = t.mem ∧ u.i = t.i ∧ u.reg 0xF = 0 :=
  ⟨_, { State.reset with mem := ((withRegs [(0xF, 9)]).storeUpTo 16).mem }, rfl, rfl, by decide, by decide⟩

/-- DataAddressesWrap: two values of `I` that are one address, and the `pc` above the last fetch. -/
theorem test_wit_wrap :
    (0xFFFF : Word).toNat % 4096 = ({ State.reset with i := 0x0FFF } : State).i.toNat % 4096 ∧
      ({ State.reset with pc := 0xFFF } : State).pc.toNat = 0xFFF := by decide

/-- FetchSeesStores: both stores complete; a later fetch at 0xFFE reads two stored bytes, one at 0xFFD a byte that
was not stored and then one that was. -/
theorem test_wit_fetch_sees :
    let s : State := { State.reset with i := 0xFFE }
    completes s (.storeRegs 1) = true ∧ completes s (.ldB 1) = true ∧
      (s.ea (0 : Nibble).toNat).toNat = 0xFFE ∧ (s.ea (1 : Nibble).toNat).toNat = 0xFFE + 1 ∧ (1 : Nibble) ≤ 1 ∧
      (∀ r : Nibble, r ≤ 1 → (s.ea r.toNat).toNat ≠ 0xFFD) ∧ (∀ k < 3, (s.ea k).toNat ≠ 0xFFD) ∧
      (s.ea 0).toNat = 0xFFD + 1 ∧ ({ s with pc := 0xFFE } : State).pc.toNat ≤ 0xFFE := by decide

/-- DrwXorsTheSprite: a bit of the sprite, the last of its clause, and a pixel outside it. -/
theorem test_wit_drw :
    7 < 8 ∧ 14 < (15 : Nibble).toNat ∧
      ∀ dx < 8, ∀ dy < (15 : Nibble).toNat, ¬ (63 % 64 = (0 + dx) % 64 ∧ 31 % 32 = (0 + dy) % 32) := by decide

/-- DrawSpriteIsAnInvolution: the longest sprite. -/
theorem test_wit_sprite : (List.replicate 15 (0xFF : Byte)).length ≤ 15 := by decide

/-- PlainRegisterWritersFrame, FlagWritersFrame. -/
theorem test_wit_writers_frame :
    ([.ldImm 1 2, .addImm 1 2, .ldReg 1 2, .orReg 1 2, .andReg 1 2, .xorReg 1 2, .ldVxDT 1,
      .addReg 1 2, .sub 1 2, .shr 1 2, .subn 1 2, .shl 1 2] : List Instr).all (completes State.reset) = true := by
  decide

/-- JumpsSkipsAndIndexWritersFrame. -/
theorem test_wit_jumps_frame :
    ([.jp 1, .jpV0 1, .seImm 1 2, .sneImm 1 2, .seReg 1 2, .sneReg 1 2, .skp 1, .sknp 1,
      .ldI 1, .addI 1, .ldF 1] : List Instr).all (completes State.reset) = true := by
  decide

/-- MemoryTransfersFrame, DisplayTimerRandomAndKeyFrame (FX0A waiting and with a key), DataAddressesWrap. -/
theorem test_wit_frames :
    ([.ldB 1, .storeRegs 0xF, .loadRegs 0xF, .cls, .drw 0 0 1, .ldDTVx 1, .ldSTVx 1, .rnd 1 2, .ldVxK 1] :
        List Instr).all (completes State.reset) = true ∧
      completes (setKey 0 true State.reset) (.ldVxK 1) = true := by
  decide

/-- OnlyNamedInstructionsWrite: for each of its clauses a word whose step changes the part. -/
theorem test_wit_named_writes :
    after (step (withWord 0xA3 0x00)) (fun t => t.i != 0) = some true ∧
      after (step (withWord 0x23 0x00)) (fun t => (t.sp != 0, t.stack != State.reset.stack)) = some (true, true) ∧
      after (step ((withWord 0xF1 0x15).setReg 1 2)) (fun t => t.dt != 0) = some true ∧
      after (step ((withWord 0xF1 0x18).setReg 1 2)) (fun t => t.st != 0) = some true ∧
      after (step (withWord 0x00 0xE0)) (fun t => t.redraw) = some true ∧
      after (step ((withWord 0xF1 0x33).setReg 1 2)) (fun t => t.mem != (withWord 0xF1 0x33).mem) = some true ∧
      after (step { withWord 0x00 0xE0 with redraw := true }) (fun t => t.redraw) = some true ∧
      after (step (withWord 0x61 0x05)) (fun t => (t.reg 1 != 0, t.pc != 0x200)) = some (true, true) ∧
      after (step (withWord 0xF1 0x0A)) (fun t => (t.wait, t.waitX != 0)) = some (true, true) ∧
      after (step (setKey 5 true waiting)) (fun t => (t.wait, t.reg 1 != 0)) = some (false, true) ∧
      after (step State.reset) (fun t => t.err != none) = some true ∧
      after (step (withWord 0xC1 0x00)) (fun t => t.draws != 0) = some true := by decide

/-- FlagIsWrittenByFlagWritersOnly: a flag writer, a plain writer with X = F, and the three other ways. -/
theorem test_wit_flag_writes :
    after (step ((withWord 0x81 0x26).setReg 1 1)) (fun t => t.reg 0xF != 0) = some true ∧
      after (step (withWord 0x6F 0x05)) (fun t => t.reg 0xF != 0) = some true ∧
      after (step { withWord 0xFF 0x07 with dt := 3 }) (fun t => t.reg 0xF != 0) = some true ∧
      after (step (setKey 3 true (withWord 0xFF 0x0A))) (fun t => t.reg 0xF != 0) = some true ∧
      after (step (withWord 0xFF 0x65)) (fun t => t.reg 0xF != 0) = some true := by decide

/-- InputsAreReadWhereNamedOnly: a running machine for each of its clauses about a parameter. -/
theorem test_wit_parameters :
    (withRegs [(1, 1)]).reg 1 ≠ (withRegs [(1, 1)]).reg 2 ∧ (withWord 0x81 0x25).fetchInstr = .ok (.sub 1 2) ∧
      ({ State.reset with pc := 0xFFF } : State).fetch = .error .outOfBounds ∧
      State.reset.fetch = .ok 0x0000 ∧ decodeWith false 0x0000 = .error (.invalidOpcode 0x0000) ∧
      Params.spec.strictDecode = true ∧ (withWord 0x51 0x2F).fetchInstr = .error .invalidOpcode ∧
      (withWord 0x51 0x2F).err = none ∧ (withWord 0x51 0x2F).wait = false := by decide

/-- InputsAreReadWhereNamedOnly: a running machine on another instruction than CXKK, and the clause about `exec`. -/
theorem test_wit_inputs :
    (∀ x : Nibble, Instr.cls ≠ .skp x ∧ Instr.cls ≠ .sknp x ∧ Instr.cls ≠ .ldVxK x) ∧
      (∀ (x : Nibble) (kk : Byte), Instr.cls ≠ .rnd x kk) ∧ (withWord 0x00 0xE0).nextInstr = some .cls ∧
      ∀ (x : Nibble) (kk : Byte), (withWord 0x00 0xE0).nextInstr ≠ some (.rnd x kk) := by
  have h : (withWord 0x00 0xE0).nextInstr = some .cls := by decide
  refine ⟨fun x => ⟨?_, ?_, ?_⟩, fun x kk => ?_, h, fun x kk => ?_⟩
  · exact fun h => nomatch h
  · exact fun h => nomatch h
  · exact fun h => nomatch h
  · exact fun h => nomatch h
  · rw [h]
    exact fun h => nomatch h

/-- ResetLeavesTheTable: both sides of the end of the font. -/
theorem test_wit_font_end : (79 : Addr).toNat < 80 ∧ 80 ≤ (80 : Addr).toNat := by decide

/-- LoadProgramWritesOrRefusesWhole, LaunchWindowRules: both sides of 3584 bytes. -/
theorem test_wit_lengths :
    (List.replicate 3584 (0xAA : Byte)).length ≤ 3584 ∧ 3584 < (List.replicate 3585 (0xAA : Byte)).length := by
  simp only [List.length_replicate]
  decide

/-- LaunchWindowRules: the three places in the launch, and the least key index that is none. -/
theorem test_wit_windows :
    (⟨State.reset, .empty⟩ : Session).window = .empty ∧ (⟨State.reset, .loaded⟩ : Session).window ≠ .empty ∧
      (⟨State.reset, .loaded⟩ : Session).window ≠ .closed ∧ (⟨State.reset, .closed⟩ : Session).window ≠ .empty ∧
      16 ≤ 16 ∧ setKey 3 true State.reset = { State.reset with key := (setKey 3 true State.reset).key } := by decide

end Sys2Proof.Tests
end

section
/-! SUPPORT. The instruction word of two bytes as a number, and fetch as R85 states it. -/
namespace Sys2Proof

/-- Big-endian: the first byte of fetch order weighs 256 (R56). -/
theorem toNat_wordOfBytes (hi lo : Byte) : (wordOfBytes hi lo).toNat = hi.toNat * 256 + lo.toNat := by
  have hlo : lo.toNat < 2 ^ 8 := lo.isLt
  calc (wordOfBytes hi lo).toNat
      = hi.toNat <<< 8 ||| lo.toNat := BitVec.toNat_append hi lo
    _ = hi.toNat <<< 8 + lo.toNat := (Nat.shiftLeft_add_eq_or_of_lt hlo hi.toNat).symm
    _ = hi.toNat * 256 + lo.toNat := by rw [Nat.shiftLeft_eq]

/-- Settles O6: `State.fetch_error` and `State.fetch_ok` are the two sides of 0xFFE, and the fetched word is the
big-endian number of its bytes. -/
theorem fetchIsBigEndianAndBounded : Obligations.FetchIsBigEndianAndBounded := by
  intro s
  constructor
  · intro hpc
    exact Machine.State.fetch_error.2 ⟨hpc, rfl⟩
  · intro hpc
    exact ⟨_, Machine.State.fetch_ok.2 ⟨hpc, rfl⟩, toNat_wordOfBytes _ _⟩

end Sys2Proof
end

section
/-! SUPPORT. What a row's mask and pattern say of a word's fields (R75), the value of a zero-extended address (R73), and
the jump of R101. -/
namespace Sys2Proof

/-- A masked word is a pattern when each of its fields, masked, is the pattern's nibble. -/
theorem and_eq_iff_fields (op : Word) {mp mx my mn pp px py pn : Nibble} :
    op &&& (mp ++ (mx ++ (my ++ mn)) : Word) = pp ++ (px ++ (py ++ pn)) ↔
      fieldP op &&& mp = pp ∧ fieldX op &&& mx = px ∧ fieldY op &&& my = py ∧ fieldN op &&& mn = pn := by
  conv_lhs => rw [word_eq_fields op, and_nibbles]
  exact nibbles_inj

/-- A row that looks at the high nibble alone (formats A and RI, R72) fixes `P`. -/
theorem fieldP_of_and {op : Word} {p : Nibble}
    (h : op &&& 0xF000 = p ++ ((0 : Nibble) ++ ((0 : Nibble) ++ (0 : Nibble)))) : fieldP op = p := by
  obtain ⟨hp, -⟩ := (and_eq_iff_fields op (mp := 0xF) (mx := 0) (my := 0) (mn := 0)).1 h
  exact (nibble_and_ones _).symm.trans hp

theorem decode_of_fieldP_one {op : Word} (h : fieldP op = 0x1) : decode op = .ok (.jp (fieldNNN op)) := by
  unfold decode decodeWith
  rw [h]
  rfl

namespace Machine

@[simp] theorem toNat_zextAddr (nnn : Addr) : (zextAddr nnn).toNat = nnn.toNat :=
  BitVec.toNat_setWidth_of_le (by decide)

theorem exec_jp (nnn : Addr) (s : State) : exec (.jp nnn) s = .next (s.jump (zextAddr nnn)) := rfl

theorem State.jump_eq_self {s : State} {w : Word} (h : s.pc = w) : s.jump w = s := by
  subst h
  rfl

theorem State.fetch_jump_of_gt (s : State) {w : Word} (h : 0xFFE < w.toNat) :
    (s.jump w).fetch = .error .outOfBounds :=
  State.fetch_error.2 ⟨h, rfl⟩

end Machine

open Machine in
/-- Settles O19: the mask fixes `P` to 1, and the state after the jump is `s.jump (zextAddr nnn)`, whose `pc` is NNN as
a number. -/
theorem jpSetsPc : Obligations.JpSetsPc := by
  refine ⟨fun op h => decode_of_fieldP_one (fieldP_of_and h), fun nnn s => ?_⟩
  have hpc : (s.jump (zextAddr nnn)).pc.toNat = nnn.toNat := toNat_zextAddr nnn
  refine ⟨s.jump (zextAddr nnn), exec_jp nnn s, hpc, State.reg_jump s _, State.err_jump s _, ?_, ?_⟩
  · intro hself
    exact State.jump_eq_self (BitVec.eq_of_toNat_eq (hself.trans hpc.symm))
  · intro htop
    exact State.fetch_jump_of_gt s (by rw [toNat_zextAddr, htop]; decide)

end Sys2Proof
end

section
/-! SUPPORT. The skips on an immediate (R110, R111): their words, and where `pc` goes for a condition and for its
negation. -/
namespace Sys2Proof

theorem decode_of_fieldP_three {op : Word} (h : fieldP op = 0x3) :
    decode op = .ok (.seImm (fieldX op) (fieldKK op)) := by
  unfold decode decodeWith
  rw [h]
  rfl

theorem decode_of_fieldP_four {op : Word} (h : fieldP op = 0x4) :
    decode op = .ok (.sneImm (fieldX op) (fieldKK op)) := by
  unfold decode decodeWith
  rw [h]
  rfl

namespace Machine

theorem exec_seImm (x : Nibble) (kk : Byte) (s : State) :
    exec (.seImm x kk) s = .next (s.skipIf (s.reg x == kk)) := rfl

/-- The condition of 4XKK is the negation of that of 3XKK. -/
theorem exec_sneImm (x : Nibble) (kk : Byte) (s : State) :
    exec (.sneImm x kk) s = .next (s.skipIf (!(s.reg x == kk))) := rfl

theorem State.pc_skipIf_of_true (s : State) {c : Bool} (h : c = true) :
    (s.skipIf c).pc = s.pc + 4 ∧ (s.skipIf (!c)).pc = s.pc + 2 := by
  subst h
  exact ⟨rfl, rfl⟩

theorem State.pc_skipIf_of_false (s : State) {c : Bool} (h : c = false) :
    (s.skipIf c).pc = s.pc + 2 ∧ (s.skipIf (!c)).pc = s.pc + 4 := by
  subst h
  exact ⟨rfl, rfl⟩

end Machine

open Machine in
/-- Settles O24: the masks fix `P` to 3 and 4, and the two instructions are `State.skipIf` of one condition and of its
negation. -/
theorem immediateSkips : Obligations.ImmediateSkips := by
  refine ⟨fun op h => decode_of_fieldP_three (fieldP_of_and h),
    fun op h => decode_of_fieldP_four (fieldP_of_and h), fun x kk s => ?_⟩
  refine ⟨_, _, exec_seImm x kk s, exec_sneImm x kk s, ?_, ?_,
    State.reg_skipIf s _ vf, State.reg_skipIf s _ vf, State.err_skipIf s _, State.err_skipIf s _⟩
  · intro heq
    exact State.pc_skipIf_of_true s (beq_iff_eq.2 heq)
  · intro hne
    exact State.pc_skipIf_of_false s (beq_eq_false_iff_ne.2 hne)

end Sys2Proof
end

section
/-! SUPPORT. The load and the addition of an immediate (R120, R121): their words, and what a register write that completes
its instruction leaves. -/
namespace Sys2Proof

theorem decode_of_fieldP_six {op : Word} (h : fieldP op = 0x6) :
    decode op = .ok (.ldImm (fieldX op) (fieldKK op)) := by
  unfold decode decodeWith
  rw [h]
  rfl

theorem decode_of_fieldP_seven {op : Word} (h : fieldP op = 0x7) :
    decode op = .ok (.addImm (fieldX op) (fieldKK op)) := by
  unfold decode decodeWith
  rw [h]
  rfl

namespace Machine

theorem exec_ldImm (x : Nibble) (kk : Byte) (s : State) : exec (.ldImm x kk) s = .next (s.setReg x kk).advance := rfl

theorem exec_addImm (x : Nibble) (kk : Byte) (s : State) :
    exec (.addImm x kk) s = .next (s.setReg x (s.reg x + kk)).advance := rfl

theorem State.reg_advance_setReg_self (s : State) (x : Nibble) (b : Byte) : (s.setReg x b).advance.reg x = b :=
  (State.reg_advance _ x).trans (State.reg_setReg_self s x b)

/-- A plain destination other than VF leaves VF (R120, R121). -/
theorem State.reg_vf_advance_setReg (s : State) {x : Nibble} (h : x ≠ vf) (b : Byte) :
    (s.setReg x b).advance.reg vf = s.reg vf :=
  (State.reg_advance _ vf).trans (State.reg_setReg_ne s h.symm b)

theorem State.pc_advance_setReg (s : State) (x : Nibble) (b : Byte) : (s.setReg x b).advance.pc = s.pc + 2 := by
  rw [State.pc_advance, State.pc_setReg]

theorem State.err_advance_setReg (s : State) (x : Nibble) (b : Byte) : (s.setReg x b).advance.err = s.err := by
  rw [State.err_advance, State.err_setReg]

end Machine

open Machine in
/-- Settles O27: the mask fixes `P` to 6, and the load is the write of KK to VX that completes. -/
theorem ldImmLoads : Obligations.LdImmLoads := by
  refine ⟨fun op h => decode_of_fieldP_six (fieldP_of_and h), fun x kk s => ?_⟩
  exact ⟨_, exec_ldImm x kk s, State.reg_advance_setReg_self s x kk, State.pc_advance_setReg s x kk,
    fun hx => State.reg_vf_advance_setReg s hx kk, State.err_advance_setReg s x kk⟩

open Machine in
/-- Settles O28: the mask fixes `P` to 7, and the byte written to VX is the sum of two bytes, which is the sum of their
numbers modulo 256. -/
theorem addImmAddsWithoutFlag : Obligations.AddImmAddsWithoutFlag := by
  refine ⟨fun op h => decode_of_fieldP_seven (fieldP_of_and h), fun x kk s => ?_⟩
  refine ⟨_, exec_addImm x kk s, ?_, State.pc_advance_setReg s x _,
    fun hx => State.reg_vf_advance_setReg s hx _, State.err_advance_setReg s x _⟩
  rw [State.reg_advance_setReg_self]
  exact BitVec.toNat_add (s.reg x) kk

end Sys2Proof
end

section
/-! SUPPORT. The words of format R (R72), and the loads of the index register (R150, R152): `I` as a number. -/
namespace Sys2Proof

/-- A row of format R (R72) fixes `P` and the low byte. -/
theorem fieldP_fieldKK_of_and {op : Word} {p y n : Nibble}
    (h : op &&& 0xF0FF = p ++ ((0 : Nibble) ++ (y ++ n))) : fieldP op = p ∧ fieldKK op = y ++ n := by
  obtain ⟨hp, -, hy, hn⟩ := (and_eq_iff_fields op (mp := 0xF) (mx := 0) (my := 0xF) (mn := 0xF)).1 h
  rw [fieldKK_eq, ← hp, ← hy, ← hn]
  simp

theorem decode_of_fieldP_ten {op : Word} (h : fieldP op = 0xA) : decode op = .ok (.ldI (fieldNNN op)) := by
  unfold decode decodeWith
  rw [h]
  rfl

/-- In family F the low byte selects (R74). -/
theorem decode_of_fieldP_fifteen {op : Word} (h : fieldP op = 0xF) : decode op = decodeF op := by
  unfold decode decodeWith
  rw [h]
  rfl

theorem decodeF_of_fieldKK_29 {op : Word} (h : fieldKK op = 0x29) : decodeF op = .ok (.ldF (fieldX op)) := by
  unfold decodeF
  rw [h]
  rfl

theorem spelledBy_ldF : Machine.SpelledBy 0xF0FF 0xF029 (fun op => .ldF (fieldX op)) := by
  intro op h
  obtain ⟨hp, hkk⟩ := fieldP_fieldKK_of_and (p := 0xF) (y := 0x2) (n := 0x9) h
  exact (decode_of_fieldP_fifteen hp).trans (decodeF_of_fieldKK_29 hkk)

namespace Machine

theorem exec_ldI (nnn : Addr) (s : State) : exec (.ldI nnn) s = .next (s.setI (zextAddr nnn)).advance := rfl

theorem exec_ldF (x : Nibble) (s : State) : exec (.ldF x) s = .next (s.setI (glyphAddr (s.reg x))).advance := rfl

/-- A glyph's address is at most 75, so the word holds it unreduced (R152). -/
theorem toNat_glyphAddr (b : Byte) : (glyphAddr b).toNat = 5 * (b.toNat % 16) := by
  have hlow : (lowNibble b).toNat = b.toNat % 16 := BitVec.toNat_setWidth 4 b
  rw [glyphAddr, hlow, BitVec.toNat_ofNat]
  omega

theorem State.pc_advance_setI (s : State) (w : Word) : (s.setI w).advance.pc = s.pc + 2 := by
  rw [State.pc_advance, State.pc_setI]

theorem State.reg_advance_setI (s : State) (w : Word) (r : Nibble) : (s.setI w).advance.reg r = s.reg r := by
  rw [State.reg_advance, State.reg_setI]

theorem State.err_advance_setI (s : State) (w : Word) : (s.setI w).advance.err = s.err := by
  rw [State.err_advance, State.err_setI]

end Machine

open Machine in
/-- Settles O35: both instructions are the write of `I` that completes; the word FX29 writes depends on VX alone, which
no memory changes. -/
theorem indexLoads : Obligations.IndexLoads := by
  refine ⟨fun op h => decode_of_fieldP_ten (fieldP_of_and h), spelledBy_ldF, fun nnn s => ?_, fun x s => ?_⟩
  · exact ⟨_, exec_ldI nnn s, toNat_zextAddr nnn, State.pc_advance_setI s _, State.reg_advance_setI s _ vf,
      State.err_advance_setI s _⟩
  · exact ⟨_, exec_ldF x s, toNat_glyphAddr _, State.pc_advance_setI s _, State.reg_advance_setI s _ vf,
      State.err_advance_setI s _, fun m => ⟨_, exec_ldF x { s with mem := m }, rfl⟩⟩

end Sys2Proof
end

section
/-! SUPPORT. The three decimal digits of a byte and their store by FX33 (R153). -/
namespace Sys2Proof

theorem decodeF_of_fieldKK_33 {op : Word} (h : fieldKK op = 0x33) : decodeF op = .ok (.ldB (fieldX op)) := by
  unfold decodeF
  rw [h]
  rfl

theorem spelledBy_ldB : Machine.SpelledBy 0xF0FF 0xF033 (fun op => .ldB (fieldX op)) := by
  intro op h
  obtain ⟨hp, hkk⟩ := fieldP_fieldKK_of_and (p := 0xF) (y := 0x3) (n := 0x3) h
  exact (decode_of_fieldP_fifteen hp).trans (decodeF_of_fieldKK_33 hkk)

namespace Machine

/-! The digits as numbers: each fits its byte. -/

theorem toNat_hundreds (b : Byte) : (hundreds b).toNat = b.toNat / 100 := by
  have hb : b.toNat < 256 := b.isLt
  rw [hundreds, BitVec.toNat_ofNat]
  omega

theorem toNat_tens (b : Byte) : (tens b).toNat = b.toNat / 10 % 10 := by
  rw [tens, BitVec.toNat_ofNat]
  omega

theorem toNat_ones (b : Byte) : (ones b).toNat = b.toNat % 10 := by
  rw [ones, BitVec.toNat_ofNat]
  omega

theorem digits_recombine (n : Nat) : 100 * (n / 100) + 10 * (n / 10 % 10) + n % 10 = n := by omega

/-! Reads after one write. -/

theorem State.memRead_memWrite_self (s : State) (a : Addr) (v : Byte) : (s.memWrite a v).memRead a = v := by
  rw [State.memRead_memWrite, if_pos rfl]

theorem State.memRead_memWrite_ne (s : State) {a b : Addr} (h : b ≠ a) (v : Byte) :
    (s.memWrite a v).memRead b = s.memRead b := by
  rw [State.memRead_memWrite, if_neg h]

theorem State.ea_ne (s : State) {j k : Nat} (hj : j < 4096) (hk : k < 4096) (h : j ≠ k) : s.ea j ≠ s.ea k :=
  fun heq => h ((s.ea_inj hj hk).1 heq)

/-! The store of FX33, a name for the writes of `execLdB`. -/

/-- The digits of `b` at `EA(0)`, `EA(1)`, `EA(2)` (R153). -/
def State.storeDigits (s : State) (b : Byte) : State :=
  ((s.memWrite (s.ea 0) (hundreds b)).memWrite (s.ea 1) (tens b)).memWrite (s.ea 2) (ones b)

theorem exec_ldB (x : Nibble) (s : State) : exec (.ldB x) s = .next (s.storeDigits (s.reg x)).advance := rfl

@[simp] theorem State.i_storeDigits (s : State) (b : Byte) : (s.storeDigits b).i = s.i := rfl
@[simp] theorem State.pc_storeDigits (s : State) (b : Byte) : (s.storeDigits b).pc = s.pc := rfl
@[simp] theorem State.err_storeDigits (s : State) (b : Byte) : (s.storeDigits b).err = s.err := rfl
@[simp] theorem State.reg_storeDigits (s : State) (b : Byte) (r : Nibble) : (s.storeDigits b).reg r = s.reg r := rfl

/-- The first byte survives the two later writes, whose addresses are others even where the transfer wraps (R54). -/
theorem State.memRead_storeDigits_zero (s : State) (b : Byte) :
    (s.storeDigits b).memRead (s.ea 0) = hundreds b := by
  have h01 : s.ea 0 ≠ s.ea 1 := s.ea_ne (by decide) (by decide) (by decide)
  have h02 : s.ea 0 ≠ s.ea 2 := s.ea_ne (by decide) (by decide) (by decide)
  rw [State.storeDigits, State.memRead_memWrite_ne _ h02, State.memRead_memWrite_ne _ h01,
    State.memRead_memWrite_self]

theorem State.memRead_storeDigits_one (s : State) (b : Byte) : (s.storeDigits b).memRead (s.ea 1) = tens b := by
  have h12 : s.ea 1 ≠ s.ea 2 := s.ea_ne (by decide) (by decide) (by decide)
  rw [State.storeDigits, State.memRead_memWrite_ne _ h12, State.memRead_memWrite_self]

theorem State.memRead_storeDigits_two (s : State) (b : Byte) : (s.storeDigits b).memRead (s.ea 2) = ones b :=
  State.memRead_memWrite_self _ _ _

theorem State.memRead_storeDigits_ne (s : State) (b : Byte) {a : Addr} (h0 : a ≠ s.ea 0) (h1 : a ≠ s.ea 1)
    (h2 : a ≠ s.ea 2) : (s.storeDigits b).memRead a = s.memRead a := by
  rw [State.storeDigits, State.memRead_memWrite_ne _ h2, State.memRead_memWrite_ne _ h1,
    State.memRead_memWrite_ne _ h0]

end Machine

open Machine in
/-- Settles O37: the state after FX33 is `s.storeDigits (s.reg x)` completed; the three addresses are distinct, so each
reads its own digit back, and a number is its digits recombined. -/
theorem ldBStoresThreeDigits : Obligations.LdBStoresThreeDigits := by
  refine ⟨spelledBy_ldB, fun x s => ⟨(s.storeDigits (s.reg x)).advance, exec_ldB x s, ?_⟩⟩
  rw [State.memRead_advance, State.memRead_advance, State.memRead_advance, State.memRead_storeDigits_zero,
    State.memRead_storeDigits_one, State.memRead_storeDigits_two, toNat_hundreds, toNat_tens, toNat_ones]
  refine ⟨?pc, rfl, rfl, rfl, digits_recombine _, ?i, ?err, ?regs, ?others⟩
  case pc => rw [State.pc_advance, State.pc_storeDigits]
  case i => rw [State.i_advance, State.i_storeDigits]
  case err => rw [State.err_advance, State.err_storeDigits]
  case regs =>
    intro r
    rw [State.reg_advance, State.reg_storeDigits]
  case others =>
    intro a h0 h1 h2
    rw [State.memRead_advance, State.memRead_storeDigits_ne s _ h0 h1 h2]

end Sys2Proof
end

section
/-! SUPPORT. The words of which all 16 bits are fixed (format Z, R75), and the clear of 00E0 (R160, R164). -/
namespace Sys2Proof

/-- A row of format Z spells its pattern and no other word. -/
theorem spelledBy_of_decode {pattern : Word} {i : Instr} (h : decode pattern = .ok i) :
    Machine.SpelledBy 0xFFFF pattern (fun _ => i) := by
  intro op hop
  have heq : op = pattern := (BitVec.and_allOnes (x := op)).symm.trans hop
  rw [heq]
  exact h

theorem spelledBy_cls : Machine.SpelledBy 0xFFFF 0x00E0 (fun _ => .cls) :=
  spelledBy_of_decode (by decide)

namespace Machine

/-- The writes of 00E0 but for `pc`: the framebuffer cleared and REDRAW set (R164). -/
def State.clearScreen (s : State) : State := { s with fb := fbClear, redraw := true }

theorem exec_cls (s : State) : exec .cls s = .next s.clearScreen.advance := rfl

@[simp] theorem State.fb_clearScreen (s : State) : s.clearScreen.fb = fbClear := rfl
@[simp] theorem State.redraw_clearScreen (s : State) : s.clearScreen.redraw = true := rfl
@[simp] theorem State.pc_clearScreen (s : State) : s.clearScreen.pc = s.pc := rfl
@[simp] theorem State.reg_clearScreen (s : State) (r : Nibble) : s.clearScreen.reg r = s.reg r := rfl
@[simp] theorem State.i_clearScreen (s : State) : s.clearScreen.i = s.i := rfl
@[simp] theorem State.memRead_clearScreen (s : State) (a : Addr) : s.clearScreen.memRead a = s.memRead a := rfl
@[simp] theorem State.dt_clearScreen (s : State) : s.clearScreen.dt = s.dt := rfl
@[simp] theorem State.st_clearScreen (s : State) : s.clearScreen.st = s.st := rfl
@[simp] theorem State.err_clearScreen (s : State) : s.clearScreen.err = s.err := rfl

theorem State.getPixel_clearScreen (s : State) (x y : Nat) : getPixel s.clearScreen.fb x y = false := by
  rw [State.fb_clearScreen, getPixel_fbClear]

end Machine

open Machine in
/-- Settles O43: the state after 00E0 is `s.clearScreen` completed, which sets REDRAW whatever the old framebuffer was. -/
theorem clsClearsTheScreen : Obligations.ClsClearsTheScreen := by
  refine ⟨spelledBy_cls, fun s => ⟨s.clearScreen.advance, exec_cls s, ?pixels, ?redraw, ?pc, ?regs, ?i, ?mem,
    ?dt, ?st, ?err⟩⟩
  case pixels =>
    intro x y
    rw [State.fb_advance, State.getPixel_clearScreen]
  case redraw => rw [State.redraw_advance, State.redraw_clearScreen]
  case pc => rw [State.pc_advance, State.pc_clearScreen]
  case regs =>
    intro r
    rw [State.reg_advance, State.reg_clearScreen]
  case i => rw [State.i_advance, State.i_clearScreen]
  case mem =>
    intro a
    rw [State.memRead_advance, State.memRead_clearScreen]
  case dt => rw [State.dt_advance, State.dt_clearScreen]
  case st => rw [State.st_advance, State.st_clearScreen]
  case err => rw [State.err_advance, State.err_clearScreen]

end Sys2Proof
end

section
/-! SUPPORT. The decode tree of R74 family by family, the fields of encoded words, and from them that the decoder and
the encoder are inverse (R70 to R75, R80). -/
namespace Sys2Proof

/-! A field is known by its number. -/

theorem nibble_of_toNat {a b : Nibble} (h : a.toNat = b.toNat) : a = b := BitVec.eq_of_toNat_eq h

/-! The fields of the formats of R72. -/

section
variable (p x y n : Nibble) (kk : Byte) (nnn : Addr) (op : Word)

theorem encodeA_fields : encodeA (fieldP op) (fieldNNN op) = op := by
  rw [fieldNNN_eq]
  exact (word_eq_fields op).symm

theorem encodeRI_fields : encodeRI (fieldP op) (fieldX op) (fieldKK op) = op := by
  rw [fieldKK_eq]
  exact (word_eq_fields op).symm

theorem encodeRRN_fields : encodeRRN (fieldP op) (fieldX op) (fieldY op) (fieldN op) = op :=
  (word_eq_fields op).symm

@[simp] theorem fieldP_encodeA : fieldP (encodeA p nnn) = p := by
  obtain ⟨x, y, n, rfl⟩ := addr_eq_nibbles nnn
  exact fieldP_nibbles p x y n

@[simp] theorem fieldNNN_encodeA : fieldNNN (encodeA p nnn) = nnn := by
  obtain ⟨x, y, n, rfl⟩ := addr_eq_nibbles nnn
  rw [fieldNNN_eq, encodeA, fieldX_nibbles, fieldY_nibbles, fieldN_nibbles]

@[simp] theorem fieldP_encodeRI : fieldP (encodeRI p x kk) = p := by
  obtain ⟨y, n, rfl⟩ := byte_eq_nibbles kk
  exact fieldP_nibbles p x y n

@[simp] theorem fieldX_encodeRI : fieldX (encodeRI p x kk) = x := by
  obtain ⟨y, n, rfl⟩ := byte_eq_nibbles kk
  exact fieldX_nibbles p x y n

@[simp] theorem fieldKK_encodeRI : fieldKK (encodeRI p x kk) = kk := by
  obtain ⟨y, n, rfl⟩ := byte_eq_nibbles kk
  rw [fieldKK_eq, encodeRI, fieldY_nibbles, fieldN_nibbles]

@[simp] theorem fieldP_encodeRRN : fieldP (encodeRRN p x y n) = p := fieldP_nibbles p x y n
@[simp] theorem fieldX_encodeRRN : fieldX (encodeRRN p x y n) = x := fieldX_nibbles p x y n
@[simp] theorem fieldY_encodeRRN : fieldY (encodeRRN p x y n) = y := fieldY_nibbles p x y n
@[simp] theorem fieldN_encodeRRN : fieldN (encodeRRN p x y n) = n := fieldN_nibbles p x y n

end

/-! Decoding an encoded instruction. -/

/-- The decode tree finds the instruction it encodes: `P` selects the family, and in the families 0, 5, 8, 9, E and F
the fixed low digits select within it. -/
theorem decode_encode (i : Instr) : decode (encode i) = .ok i := by
  cases i
  case cls | ret => decide
  case jp | call | ldI | jpV0 => simp [decode, decodeWith, encode]
  case seImm | sneImm | ldImm | addImm | rnd => simp [decode, decodeWith, encode]
  case seReg | sneReg => simp [decode, decodeWith, decodeN0, encode]
  case ldReg | orReg | andReg | xorReg | addReg | sub | shr | subn | shl => simp [decode, decodeWith, decode8, encode]
  case drw => simp [decode, decodeWith, encode]
  case skp | sknp => simp [decode, decodeWith, decodeE, encode]
  case ldVxDT | ldVxK | ldDTVx | ldSTVx | addI | ldF | ldB | storeRegs | loadRegs =>
    simp [decode, decodeWith, decodeF, encode]

/-- Settles O1: `decode_encode`, and the two bytes of a word make the word. -/
theorem decodeEncodeRoundTrip : Obligations.DecodeEncodeRoundTrip := by
  intro i _
  refine ⟨decode_encode i, ?_⟩
  rw [decodeBytes, wordOfBytes_hi_lo]
  exact decode_encode i

/-! Encoding a decoded word, family by family. -/

theorem encodeA_of_fields {op : Word} {p : Nibble} (hp : fieldP op = p) : encodeA p (fieldNNN op) = op := by
  rw [← hp, encodeA_fields]

theorem encodeRI_of_fields {op : Word} {p : Nibble} (hp : fieldP op = p) :
    encodeRI p (fieldX op) (fieldKK op) = op := by
  rw [← hp, encodeRI_fields]

theorem encodeR_of_fields {op : Word} {p : Nibble} {kk : Byte} (hp : fieldP op = p)
    (hk : (fieldKK op).toNat = kk.toNat) : encodeRI p (fieldX op) kk = op := by
  rw [← BitVec.eq_of_toNat_eq hk, encodeRI_of_fields hp]

theorem encodeRRN_of_fields {op : Word} {p : Nibble} (hp : fieldP op = p) :
    encodeRRN p (fieldX op) (fieldY op) (fieldN op) = op := by
  rw [← hp, encodeRRN_fields]

theorem encodeRR_of_fields {op : Word} {p n : Nibble} (hp : fieldP op = p) (hn : (fieldN op).toNat = n.toNat) :
    encodeRRN p (fieldX op) (fieldY op) n = op := by
  rw [← BitVec.eq_of_toNat_eq hn, encodeRRN_of_fields hp]

/-- Format Z (R72): a word of family 0 with a zero `X`. -/
theorem encodeZ_of_fields {op : Word} {kk : Byte} (hp : fieldP op = 0) (hx : fieldX op = 0)
    (hk : (fieldKK op).toNat = kk.toNat) : encodeRI 0 0 kk = op := by
  rw [← encodeR_of_fields hp hk, hx]

theorem encode_of_decode0 {op : Word} {i : Instr} (hp : fieldP op = 0x0) (h : decode0 true op = .ok i) :
    encode i = op := by
  unfold decode0 at h
  split at h
  · cases h
  next hx =>
    have hx : fieldX op = 0 := by simpa using hx
    split at h <;> cases h
    next hk => exact encodeZ_of_fields (kk := 0xE0) hp hx hk
    next hk => exact encodeZ_of_fields (kk := 0xEE) hp hx hk

/-- With strict decoding the families 5 and 9 accept `N = 0` alone. -/
theorem decodeN0_ok {op : Word} {i j : Instr} (h : decodeN0 true op i = .ok j) : (fieldN op).toNat = 0 ∧ j = i := by
  unfold decodeN0 at h
  split at h <;> cases h
  next hn => simp_all

theorem encode_of_decode8 {op : Word} {i : Instr} (hp : fieldP op = 0x8) (h : decode8 op = .ok i) :
    encode i = op := by
  unfold decode8 at h
  split at h <;> cases h
  all_goals exact encodeRR_of_fields hp ‹_›

theorem encode_of_decodeE {op : Word} {i : Instr} (hp : fieldP op = 0xE) (h : decodeE op = .ok i) :
    encode i = op := by
  unfold decodeE at h
  split at h <;> cases h
  all_goals exact encodeR_of_fields hp ‹_›

theorem encode_of_decodeF {op : Word} {i : Instr} (hp : fieldP op = 0xF) (h : decodeF op = .ok i) :
    encode i = op := by
  unfold decodeF at h
  split at h <;> cases h
  all_goals exact encodeR_of_fields hp ‹_›

/-- An accepted word is the word of what it means: `P` is the family, and its own selector is in the accepted arm. -/
theorem encode_of_decode {op : Word} {i : Instr} (h : decode op = .ok i) : encode i = op := by
  unfold decode decodeWith at h
  split at h
  next hp => exact encode_of_decode0 (nibble_of_toNat hp) h
  next hp => cases h; exact encodeA_of_fields (nibble_of_toNat hp)
  next hp => cases h; exact encodeA_of_fields (nibble_of_toNat hp)
  next hp => cases h; exact encodeRI_of_fields (nibble_of_toNat hp)
  next hp => cases h; exact encodeRI_of_fields (nibble_of_toNat hp)
  next hp =>
    obtain ⟨hn, rfl⟩ := decodeN0_ok h
    exact encodeRR_of_fields (nibble_of_toNat hp) hn
  next hp => cases h; exact encodeRI_of_fields (nibble_of_toNat hp)
  next hp => cases h; exact encodeRI_of_fields (nibble_of_toNat hp)
  next hp => exact encode_of_decode8 (nibble_of_toNat hp) h
  next hp =>
    obtain ⟨hn, rfl⟩ := decodeN0_ok h
    exact encodeRR_of_fields (nibble_of_toNat hp) hn
  next hp => cases h; exact encodeA_of_fields (nibble_of_toNat hp)
  next hp => cases h; exact encodeA_of_fields (nibble_of_toNat hp)
  next hp => cases h; exact encodeRI_of_fields (nibble_of_toNat hp)
  next hp => cases h; exact encodeRRN_of_fields (nibble_of_toNat hp)
  next hp => exact encode_of_decodeE (nibble_of_toNat hp) h
  next hp => exact encode_of_decodeF (nibble_of_toNat hp) h
  · cases h

/-! The rows of the opcode map (R75). -/

open Laws in
/-- `MatchesRow` for every instruction. -/
theorem row_spells_encode (i : Instr) : i.row.spells (encode i) = true :=
  match i with
  | .cls => MatchesRow.cls
  | .ret => MatchesRow.ret
  | .jp nnn => MatchesRow.jp nnn
  | .call nnn => MatchesRow.call nnn
  | .seImm x kk => MatchesRow.seImm x kk
  | .sneImm x kk => MatchesRow.sneImm x kk
  | .seReg x y => MatchesRow.seReg x y
  | .ldImm x kk => MatchesRow.ldImm x kk
  | .addImm x kk => MatchesRow.addImm x kk
  | .ldReg x y => MatchesRow.ldReg x y
  | .orReg x y => MatchesRow.orReg x y
  | .andReg x y => MatchesRow.andReg x y
  | .xorReg x y => MatchesRow.xorReg x y
  | .addReg x y => MatchesRow.addReg x y
  | .sub x y => MatchesRow.sub x y
  | .shr x y => MatchesRow.shr x y
  | .subn x y => MatchesRow.subn x y
  | .shl x y => MatchesRow.shl x y
  | .sneReg x y => MatchesRow.sneReg x y
  | .ldI nnn => MatchesRow.ldI nnn
  | .jpV0 nnn => MatchesRow.jpV0 nnn
  | .rnd x kk => MatchesRow.rnd x kk
  | .drw x y n => MatchesRow.drw x y n
  | .skp x => MatchesRow.skp x
  | .sknp x => MatchesRow.sknp x
  | .ldVxDT x => MatchesRow.ldVxDT x
  | .ldVxK x => MatchesRow.ldVxK x
  | .ldDTVx x => MatchesRow.ldDTVx x
  | .ldSTVx x => MatchesRow.ldSTVx x
  | .addI x => MatchesRow.addI x
  | .ldF x => MatchesRow.ldF x
  | .ldB x => MatchesRow.ldB x
  | .storeRegs x => MatchesRow.storeRegs x
  | .loadRegs x => MatchesRow.loadRegs x

/-- Settles O2: `encode_of_decode`, and the encoded word is spelled by its row. -/
theorem encodeDecodeRoundTrip : Obligations.EncodeDecodeRoundTrip := by
  intro op i h
  have he : encode i = op := encode_of_decode h
  exact ⟨he, he ▸ row_spells_encode i⟩

/-- The instruction of the same row whose operands are the fields of `op` (R71, R72). -/
def Instr.withFieldsOf (op : Word) : Instr → Instr
  | .cls => .cls
  | .ret => .ret
  | .jp _ => .jp (fieldNNN op)
  | .call _ => .call (fieldNNN op)
  | .seImm _ _ => .seImm (fieldX op) (fieldKK op)
  | .sneImm _ _ => .sneImm (fieldX op) (fieldKK op)
  | .seReg _ _ => .seReg (fieldX op) (fieldY op)
  | .ldImm _ _ => .ldImm (fieldX op) (fieldKK op)
  | .addImm _ _ => .addImm (fieldX op) (fieldKK op)
  | .ldReg _ _ => .ldReg (fieldX op) (fieldY op)
  | .orReg _ _ => .orReg (fieldX op) (fieldY op)
  | .andReg _ _ => .andReg (fieldX op) (fieldY op)
  | .xorReg _ _ => .xorReg (fieldX op) (fieldY op)
  | .addReg _ _ => .addReg (fieldX op) (fieldY op)
  | .sub _ _ => .sub (fieldX op) (fieldY op)
  | .shr _ _ => .shr (fieldX op) (fieldY op)
  | .subn _ _ => .subn (fieldX op) (fieldY op)
  | .shl _ _ => .shl (fieldX op) (fieldY op)
  | .sneReg _ _ => .sneReg (fieldX op) (fieldY op)
  | .ldI _ => .ldI (fieldNNN op)
  | .jpV0 _ => .jpV0 (fieldNNN op)
  | .rnd _ _ => .rnd (fieldX op) (fieldKK op)
  | .drw _ _ _ => .drw (fieldX op) (fieldY op) (fieldN op)
  | .skp _ => .skp (fieldX op)
  | .sknp _ => .sknp (fieldX op)
  | .ldVxDT _ => .ldVxDT (fieldX op)
  | .ldVxK _ => .ldVxK (fieldX op)
  | .ldDTVx _ => .ldDTVx (fieldX op)
  | .ldSTVx _ => .ldSTVx (fieldX op)
  | .addI _ => .addI (fieldX op)
  | .ldF _ => .ldF (fieldX op)
  | .ldB _ => .ldB (fieldX op)
  | .storeRegs _ => .storeRegs (fieldX op)
  | .loadRegs _ => .loadRegs (fieldX op)

theorem Instr.row_withFieldsOf (op : Word) (i : Instr) : (i.withFieldsOf op).row = i.row := by
  cases i <;> rfl

/-- A row of format RR (R72) fixes `P` and `N`. -/
theorem fieldP_fieldN_of_and {op pattern : Word} (h : op &&& 0xF00F = pattern) :
    fieldP op = fieldP pattern ∧ (fieldN op).toNat = (fieldN pattern).toNat := by
  rw [word_eq_fields pattern] at h
  obtain ⟨hp, -, -, hn⟩ := (and_eq_iff_fields op (mp := 0xF) (mx := 0) (my := 0) (mn := 0xF)).1 h
  rw [← hp, ← hn]
  simp

/-- A row of format R (R72) fixes `P` and `KK`. -/
theorem fieldP_toNat_fieldKK_of_and {op pattern : Word} (h : op &&& 0xF0FF = pattern) :
    fieldP op = fieldP pattern ∧ (fieldKK op).toNat = (fieldKK pattern).toNat := by
  rw [word_eq_fields pattern] at h
  obtain ⟨hp, -, hy, hn⟩ := (and_eq_iff_fields op (mp := 0xF) (mx := 0) (my := 0xF) (mn := 0xF)).1 h
  rw [fieldKK_eq op, fieldKK_eq pattern, ← hp, ← hy, ← hn]
  simp

/-- A spelled word is the word of its row with the word's own fields as operands: the mask covers every bit that is no
operand. -/
theorem encode_withFieldsOf {op : Word} {i : Instr} (h : op &&& i.row.mask = i.row.pattern) :
    encode (i.withFieldsOf op) = op := by
  cases i
  case cls | ret => exact h.symm.trans BitVec.and_allOnes
  case jp | call | ldI | jpV0 => exact encodeA_of_fields (fieldP_of_and h)
  case seImm | sneImm | ldImm | addImm | rnd => exact encodeRI_of_fields (fieldP_of_and h)
  case drw => exact encodeRRN_of_fields (fieldP_of_and h)
  case seReg | sneReg | ldReg | orReg | andReg | xorReg | addReg | sub | shr | subn | shl =>
    obtain ⟨hp, hn⟩ := fieldP_fieldN_of_and h
    simp only [Instr.row] at hp hn
    exact encodeRR_of_fields (hp.trans (by decide)) (hn.trans (by decide))
  case skp | sknp | ldVxDT | ldVxK | ldDTVx | ldSTVx | addI | ldF | ldB | storeRegs | loadRegs =>
    obtain ⟨hp, hk⟩ := fieldP_toNat_fieldKK_of_and h
    simp only [Instr.row] at hp hk
    exact encodeR_of_fields (hp.trans (by decide)) (hk.trans (by decide))

/-- Every word of a row decodes to the row's instruction with the word's fields. -/
theorem spelledBy_row (i : Instr) : Machine.SpelledBy i.row.mask i.row.pattern (i.withFieldsOf ·) := by
  intro op h
  have hd := decode_encode (i.withFieldsOf op)
  rwa [encode_withFieldsOf h] at hd

theorem mem_opcodeMap {r : Row} : r ∈ opcodeMap ↔ ∃ i : Instr, i.row = r := by
  constructor
  · intro h
    simp only [opcodeMap, ← List.map_append] at h
    obtain ⟨i, -, hi⟩ := List.mem_map.1 h
    exact ⟨i, hi⟩
  · rintro ⟨i, rfl⟩
    cases i <;> simp [opcodeMap, Instr.row]

/-- A row that spells a word is the row of what the word means. -/
theorem decode_of_spells {r : Row} (hr : r ∈ opcodeMap) {op : Word} (h : r.spells op = true) :
    ∃ i, decode op = .ok i ∧ i.row = r := by
  obtain ⟨i, rfl⟩ := mem_opcodeMap.1 hr
  exact ⟨_, spelledBy_row i op (beq_iff_eq.1 h), Instr.row_withFieldsOf op i⟩

theorem decode_ok_iff_wellFormed {op : Word} : (∃ i, decode op = .ok i) ↔ wordWellFormed op = true := by
  unfold wordWellFormed
  rw [List.any_eq_true]
  constructor
  · rintro ⟨i, h⟩
    obtain ⟨-, hs⟩ := encodeDecodeRoundTrip op i h
    exact ⟨i.row, mem_opcodeMap.2 ⟨i, rfl⟩, hs⟩
  · rintro ⟨r, hr, hs⟩
    obtain ⟨i, hi, -⟩ := decode_of_spells hr hs
    exact ⟨i, hi⟩

/-- Every arm of the decode tree accepts the word or refuses it by name (R80). -/
theorem decode_ok_or_invalid (op : Word) : (∃ i, decode op = .ok i) ∨ decode op = .error (.invalidOpcode op) := by
  unfold decode decodeWith decode0 decodeN0 decode8 decodeE decodeF
  repeat' split
  all_goals simp

end Sys2Proof
end

section
/-! SUPPORT. The valid words by row (R75) and the invalid words by family (R80), with strict decoding and without. -/
namespace Sys2Proof

/-- Settles O3: a row that spells a word gives its meaning (`decode_of_spells`), so two rows that spell it are the row
of one instruction. Strict decode is decision D3, notes/assumptions/5.md. -/
theorem decodesExactlyTheMappedWords : Obligations.DecodesExactlyTheMappedWords := by
  intro op
  refine ⟨decode_ok_iff_wellFormed, ?refused, ?unique⟩
  case refused =>
    rw [← Bool.not_eq_true, ← decode_ok_iff_wellFormed]
    constructor
    · rintro h ⟨i, hi⟩
      rw [h] at hi
      cases hi
    · intro h
      exact (decode_ok_or_invalid op).resolve_left h
  case unique =>
    intro r hr r' hr' hs hs'
    obtain ⟨i, hi, rfl⟩ := decode_of_spells hr hs
    obtain ⟨j, hj, rfl⟩ := decode_of_spells hr' hs'
    rw [hi] at hj
    cases hj
    rfl

/-! The refusals of each family. -/

theorem decode0_invalid {strict : Bool} {op : Word} :
    decode0 strict op = .error (.invalidOpcode op) ↔
      (strict = true ∧ fieldX op ≠ 0) ∨ fieldKK op ∉ [0xE0, 0xEE] := by
  unfold decode0
  split
  next h => simp_all
  next h =>
    have hx : ¬ (strict = true ∧ fieldX op ≠ 0) := by simpa using h
    split <;> simp_all [← BitVec.toNat_inj]

theorem decodeN0_invalid {strict : Bool} {op : Word} {i : Instr} :
    decodeN0 strict op i = .error (.invalidOpcode op) ↔ strict = true ∧ fieldN op ≠ 0 := by
  unfold decodeN0
  split <;> simp_all

theorem decode8_invalid {op : Word} :
    decode8 op = .error (.invalidOpcode op) ↔ fieldN op ∈ [0x8, 0x9, 0xA, 0xB, 0xC, 0xD, 0xF] := by
  have hn := nibble_lt (fieldN op)
  unfold decode8
  split <;> simp_all [← BitVec.toNat_inj]
  omega

theorem decodeE_invalid {op : Word} : decodeE op = .error (.invalidOpcode op) ↔ fieldKK op ∉ [0x9E, 0xA1] := by
  unfold decodeE
  split <;> simp_all [← BitVec.toNat_inj]

theorem decodeF_invalid {op : Word} :
    decodeF op = .error (.invalidOpcode op) ↔
      fieldKK op ∉ [0x07, 0x0A, 0x15, 0x18, 0x1E, 0x29, 0x33, 0x55, 0x65] := by
  unfold decodeF
  split <;> simp_all [← BitVec.toNat_inj]

/-- The refusals of the decode tree: `P` says in which family, and the families 1 to 4, 6, 7 and A to D refuse
nothing. -/
theorem decodeWith_invalid {strict : Bool} {op : Word} :
    decodeWith strict op = .error (.invalidOpcode op) ↔
      (fieldP op = 0x0 ∧ ((strict = true ∧ fieldX op ≠ 0) ∨ fieldKK op ∉ [0xE0, 0xEE])) ∨
      (fieldP op = 0x5 ∧ strict = true ∧ fieldN op ≠ 0x0) ∨
      (fieldP op = 0x8 ∧ fieldN op ∈ [0x8, 0x9, 0xA, 0xB, 0xC, 0xD, 0xF]) ∨
      (fieldP op = 0x9 ∧ strict = true ∧ fieldN op ≠ 0x0) ∨
      (fieldP op = 0xE ∧ fieldKK op ∉ [0x9E, 0xA1]) ∨
      (fieldP op = 0xF ∧ fieldKK op ∉ [0x07, 0x0A, 0x15, 0x18, 0x1E, 0x29, 0x33, 0x55, 0x65]) := by
  have hp := nibble_lt (fieldP op)
  rw [← decode0_invalid, ← decode8_invalid, ← decodeE_invalid, ← decodeF_invalid]
  unfold decodeWith
  split
  all_goals simp_all [← BitVec.toNat_inj, decodeN0_invalid]
  omega

/-- The two words of family 0 that strict decoding accepts (R74). -/
theorem family0_strict {op : Word} (hp : fieldP op = 0) :
    (fieldX op ≠ 0 ∨ fieldKK op ∉ [0xE0, 0xEE]) ↔ op ≠ 0x00E0 ∧ op ≠ 0x00EE := by
  have key : ∀ kk : Byte, op = encodeRI 0 0 kk ↔ fieldX op = 0 ∧ fieldKK op = kk := by
    intro kk
    constructor
    · intro h
      rw [h]
      simp
    · rintro ⟨hx, hk⟩
      rw [← encodeRI_of_fields hp, hx, hk]
  have h0 := key 0xE0
  have hE := key 0xEE
  rw [show encodeRI 0 0 0xE0 = 0x00E0 by decide] at h0
  rw [show encodeRI 0 0 0xEE = 0x00EE by decide] at hE
  simp only [ne_eq, h0, hE, List.mem_cons, List.not_mem_nil, or_false]
  tauto

/-! Lenient decoding (decision D3). -/

theorem decode0_lenient {op : Word} {i : Instr} (h : decode0 true op = .ok i) : decode0 false op = .ok i := by
  unfold decode0 at h ⊢
  split at h
  · cases h
  · exact h

/-- A word that strict decoding accepts means the same without it. -/
theorem decodeWith_lenient {op : Word} {i : Instr} (h : decode op = .ok i) : decodeWith false op = .ok i := by
  unfold decode decodeWith at h
  unfold decodeWith
  split at h
  case h_1 => exact decode0_lenient h
  case h_6 | h_10 =>
    obtain ⟨-, rfl⟩ := decodeN0_ok h
    rfl
  all_goals exact h

/-- Settles O4: `decodeWith_invalid` at both values of STRICT_DECODE, with the strict words of family 0 written out, and
the lenient meanings of the families 0, 5 and 9. -/
theorem invalidWordsByFamily : Obligations.InvalidWordsByFamily := by
  intro op
  refine ⟨?strict, ?lenient, fun i h => decodeWith_lenient h, ?cls, ?ret, ?five, ?nine⟩
  case strict =>
    refine decodeWith_invalid.trans (or_congr (and_congr_right fun hp => ?_) ?_)
    · simp only [Machine.strictDecode, true_and, family0_strict hp]
    · simp only [Machine.strictDecode, true_and]
  case lenient =>
    refine decodeWith_invalid.trans ?_
    simp only [Bool.false_eq_true, false_and, and_false, false_or]
  all_goals
    intro hp
    unfold decodeWith
    rw [hp]
  case cls | ret =>
    intro hk
    show decode0 false op = _
    unfold decode0
    rw [hk]
    rfl
  case five | nine => rfl

/-- Settles O5: each word is evaluated. -/
theorem specWordsDecode : Obligations.SpecWordsDecode := by
  unfold Obligations.SpecWordsDecode
  decide

end Sys2Proof
end

section
/-! SUPPORT. What an instruction can do, said once: it completes, calls, starts a key wait, or raises its own error
(R86, R203, R207, R208). The equations of the arms of `exec` come first. -/
namespace Sys2Proof.Machine

/-- A result is one next state. -/
theorem next_unique {r : Result} {t u : State} (h : r = .next t) (h' : r = .next u) : t = u :=
  Host.Outcome.next.inj (h.symm.trans h')

/-! The arms of `exec`. -/

section
variable (x y n : Nibble) (kk : Byte) (nnn : Addr) (s : State)

theorem exec_jpV0 : exec (.jpV0 nnn) s = .next (s.jump (zextAddr nnn + zextByte (s.reg 0))) := rfl

theorem exec_seReg : exec (.seReg x y) s = .next (s.skipIf (s.reg x == s.reg y)) := rfl

/-- The condition of 9XY0 is the negation of that of 5XY0. -/
theorem exec_sneReg : exec (.sneReg x y) s = .next (s.skipIf (!(s.reg x == s.reg y))) := rfl

theorem exec_skp : exec (.skp x) s = .next (s.skipIf (s.keyOf x)) := rfl

theorem exec_sknp : exec (.sknp x) s = .next (s.skipIf (!s.keyOf x)) := rfl

theorem exec_ldReg : exec (.ldReg x y) s = .next (s.setReg x (s.reg y)).advance := rfl

theorem exec_orReg : exec (.orReg x y) s = .next (s.setReg x (s.reg x ||| s.reg y)).advance := rfl

theorem exec_andReg : exec (.andReg x y) s = .next (s.setReg x (s.reg x &&& s.reg y)).advance := rfl

theorem exec_xorReg : exec (.xorReg x y) s = .next (s.setReg x (s.reg x ^^^ s.reg y)).advance := rfl

theorem exec_ldVxDT : exec (.ldVxDT x) s = .next (s.setReg x s.dt).advance := rfl

theorem exec_addI : exec (.addI x) s = .next (s.setI (s.i + zextByte (s.reg x))).advance := rfl

theorem exec_ldDTVx : exec (.ldDTVx x) s = .next { s with dt := s.reg x }.advance := rfl

theorem exec_ldSTVx : exec (.ldSTVx x) s = .next { s with st := s.reg x }.advance := rfl

theorem exec_storeRegs : exec (.storeRegs x) s = .next (s.storeUpTo (x.toNat + 1)).advance := rfl

theorem exec_loadRegs : exec (.loadRegs x) s = .next (s.loadUpTo (x.toNat + 1)).advance := rfl

/-- CXKK with the free byte (R122). -/
theorem exec_rnd : exec (.rnd x kk) s = rndWith (Config.rand s.draws) x kk s := rfl

/-- DXYN with the grid and the collision of its sprite (R165). -/
theorem exec_drw : exec (.drw x y n) s =
    .next (({ s with
      fb := (drawSprite s.fb (s.reg x).toNat (s.reg y).toNat (s.spriteRows n)).1
      redraw := true } : State).setFlag
        (flag (drawSprite s.fb (s.reg x).toNat (s.reg y).toNat (s.spriteRows n)).2)).advance := rfl

theorem exec_ldVxK : (keySel s.key = none ∧ exec (.ldVxK x) s = .next { s with wait := true, waitX := x }) ∨
    ∃ k, keySel s.key = some k ∧ exec (.ldVxK x) s = .next (s.setReg x (zextNibble k)).advance := execLdVxK_eq x s

end

/-! The two ways of a call and of a return (R100, R102). -/

/-- The state after a call: the call's own address in the slot above, `pc` at its target (R102). -/
def State.called (s : State) (nnn : Addr) : State :=
  { s with
    sp := s.sp + 1
    stack := s.stack.set (s.sp + 1).toNat s.pc (nibble_lt _)
    pc := zextAddr nnn }

/-- The state after a return (R100). -/
def State.returned (s : State) : State := { s with sp := s.sp - 1, pc := s.slot s.sp + 2 }

section
variable {s : State}

theorem exec_call_full (h : s.sp = 15) (nnn : Addr) :
    exec (.call nnn) s = .next { s with err := some .stackOverflow } := (execCall_eq nnn s).trans (if_pos h)

theorem exec_call_below (h : s.sp ≠ 15) (nnn : Addr) : exec (.call nnn) s = .next (s.called nnn) :=
  (execCall_eq nnn s).trans (if_neg h)

theorem exec_ret_empty (h : s.sp = 0) : exec .ret s = .next { s with err := some .stackUnderflow } :=
  (execRet_eq s).trans (if_pos h)

theorem exec_ret_above (h : s.sp ≠ 0) : exec .ret s = .next s.returned := (execRet_eq s).trans (if_neg h)

end

/-! The error of an instruction itself (R207, R208). -/

/-- StackOverflow of a call at `SP = 15`, StackUnderflow of a return at `SP = 0`, else none. -/
def ownError (i : Instr) (s : State) : Option FatalError :=
  match i with
  | .call _ => if s.sp = 15 then some .stackOverflow else none
  | .ret => if s.sp = 0 then some .stackUnderflow else none
  | _ => none

theorem ownError_call (nnn : Addr) (s : State) :
    ownError (.call nnn) s = if s.sp = 15 then some .stackOverflow else none := rfl

theorem ownError_ret (s : State) : ownError .ret s = if s.sp = 0 then some .stackUnderflow else none := rfl

theorem cause_of_fetch_error {s : State} {e : FatalError} (h : s.fetchInstr = .error e) : s.cause = some e := by
  rw [State.cause, h]

theorem cause_of_instr {s : State} {i : Instr} (h : s.fetchInstr = .ok i) : s.cause = ownError i s := by
  rw [State.cause, h]
  cases i <;> rfl

theorem exec_of_ownError {i : Instr} {s : State} {e : FatalError} (h : ownError i s = some e) :
    exec i s = raise e s := by
  cases i
  case call nnn =>
    rw [ownError_call] at h
    split at h <;> cases h
    next hsp => exact exec_call_full hsp nnn
  case ret =>
    rw [ownError_ret] at h
    split at h <;> cases h
    next hsp => exact exec_ret_empty hsp
  all_goals cases h

/-! What an instruction leaves where it completes. -/

/-- The targets of `pc` (R25): the next instruction or the one after it, a jump's, or after a call. -/
def NextPc (s : State) (w : Word) : Prop :=
  (w = s.pc + 2 ∨ w = s.pc + 4) ∨ (∃ nnn, w = zextAddr nnn ∨ w = zextAddr nnn + zextByte (s.reg 0)) ∨
    ∃ n, w = s.slot n + 2

theorem nextPc_skipIf (s : State) (c : Bool) : NextPc s (s.skipIf c).pc := by
  cases c
  · exact .inl (.inl rfl)
  · exact .inl (.inr rfl)

/-- The instruction completed: no error, no wait, the slots of the stack as before. -/
structure Completed (s t : State) : Prop where
  err : t.err = s.err
  wait : t.wait = s.wait
  stack : t.stack = s.stack
  mem_wf : s.mem.wf → t.mem.wf
  nextPc : NextPc s t.pc

theorem completed_skipIf (s : State) (c : Bool) : Completed s (s.skipIf c) := ⟨rfl, rfl, rfl, id, nextPc_skipIf s c⟩

/-- Everything an instruction that answers `t` can have done. -/
theorem exec_cases {i : Instr} {s t : State} (h : exec i s = .next t) :
    Completed s t ∨
    (∃ nnn, i = .call nnn ∧ s.sp ≠ 15 ∧ t = s.called nnn) ∨
    (∃ x, i = .ldVxK x ∧ t = { s with wait := true, waitX := x }) ∨
    (∃ e, ownError i s = some e ∧ t = { s with err := some e }) := by
  cases i
  case call nnn =>
    by_cases hsp : s.sp = 15
    · exact .inr (.inr (.inr ⟨_, if_pos hsp, next_unique h (exec_call_full hsp nnn)⟩))
    · exact .inr (.inl ⟨nnn, rfl, hsp, next_unique h (exec_call_below hsp nnn)⟩)
  case ret =>
    by_cases hsp : s.sp = 0
    · exact .inr (.inr (.inr ⟨_, if_pos hsp, next_unique h (exec_ret_empty hsp)⟩))
    · obtain rfl := next_unique (exec_ret_above hsp) h
      exact .inl ⟨rfl, rfl, rfl, id, .inr (.inr ⟨s.sp, rfl⟩)⟩
  case ldVxK x =>
    obtain ⟨-, hx⟩ | ⟨k, -, hx⟩ := exec_ldVxK x s
    · exact .inr (.inr (.inl ⟨x, rfl, next_unique h hx⟩))
    · obtain rfl := next_unique hx h
      exact .inl ⟨rfl, rfl, rfl, id, .inl (.inl rfl)⟩
  all_goals left
  case ldB x =>
    obtain ⟨m, hx, hm⟩ := execLdB_eq x s
    obtain rfl := next_unique hx h
    exact ⟨rfl, rfl, rfl, hm, .inl (.inl rfl)⟩
  case storeRegs x =>
    obtain ⟨m, hx, hm⟩ := execStoreRegs_eq x s
    obtain rfl := next_unique hx h
    exact ⟨rfl, rfl, rfl, hm, .inl (.inl rfl)⟩
  case loadRegs x =>
    obtain ⟨v, hx⟩ := execLoadRegs_eq x s
    obtain rfl := next_unique hx h
    exact ⟨rfl, rfl, rfl, id, .inl (.inl rfl)⟩
  all_goals obtain rfl := Host.Outcome.next.inj h
  case jp nnn => exact ⟨rfl, rfl, rfl, id, .inr (.inl ⟨nnn, .inl rfl⟩)⟩
  case jpV0 nnn => exact ⟨rfl, rfl, rfl, id, .inr (.inl ⟨nnn, .inr rfl⟩)⟩
  case seImm | sneImm | seReg | sneReg | skp | sknp => exact completed_skipIf s _
  all_goals exact ⟨rfl, rfl, rfl, id, .inl (.inl rfl)⟩

/-- Every instruction answers a next state. -/
theorem exec_total (i : Instr) (s : State) : ∃ t, exec i s = .next t := by
  cases i
  case call nnn =>
    by_cases hsp : s.sp = 15
    · exact ⟨_, exec_call_full hsp nnn⟩
    · exact ⟨_, exec_call_below hsp nnn⟩
  case ret =>
    by_cases hsp : s.sp = 0
    · exact ⟨_, exec_ret_empty hsp⟩
    · exact ⟨_, exec_ret_above hsp⟩
  case ldVxK x =>
    obtain ⟨-, hx⟩ | ⟨k, -, hx⟩ := exec_ldVxK x s
    · exact ⟨_, hx⟩
    · exact ⟨_, hx⟩
  all_goals exact ⟨_, rfl⟩

/-- An instruction whose own check passes raises nothing. -/
theorem err_of_exec {i : Instr} {s t : State} (h : exec i s = .next t) (ho : ownError i s = none) : t.err = s.err := by
  obtain hc | ⟨nnn, -, -, rfl⟩ | ⟨x, -, rfl⟩ | ⟨e, he, -⟩ := exec_cases h
  · exact hc.err
  · rfl
  · rfl
  · rw [he] at ho
    cases ho

/-! The step. -/

theorem pollKey_total (s : State) : ∃ t, pollKey s = .next t := by
  obtain ⟨-, h⟩ | ⟨k, -, h⟩ := pollKey_eq s
  · exact ⟨_, h⟩
  · exact ⟨_, h⟩

/-- A machine is in one of the three modes of R86. -/
theorem State.modes (s : State) : s.Stopped ∨ s.Waiting ∨ s.Running := by
  cases he : s.err with
  | some e => exact .inl (by simp [State.Stopped, he])
  | none =>
    cases hw : s.wait with
    | true => exact .inr (.inl ⟨he, hw⟩)
    | false => exact .inr (.inr ⟨he, hw⟩)

theorem step_total (s : State) : ∃ t, step s = .next t := by
  obtain hs | hw | hr := s.modes
  · exact ⟨s, step_of_stopped hs⟩
  · rw [step_of_waiting hw]
    exact pollKey_total s
  · cases hf : s.fetchInstr with
    | error e => exact ⟨_, step_of_fetch_error hr hf⟩
    | ok i =>
      rw [step_of_instr hr hf]
      exact exec_total i s

/-- A running machine with a cause raises it. -/
theorem step_of_cause {s : State} (hr : s.Running) {e : FatalError} (hc : s.cause = some e) :
    step s = .next { s with err := some e } := by
  cases hf : s.fetchInstr with
  | error e' =>
    rw [cause_of_fetch_error hf] at hc
    cases hc
    exact step_of_fetch_error hr hf
  | ok i =>
    rw [cause_of_instr hf] at hc
    rw [step_of_instr hr hf]
    exact exec_of_ownError hc

/-- A running machine without a cause raises nothing. -/
theorem err_of_step_of_no_cause {s t : State} (hr : s.Running) (hc : s.cause = none) (h : step s = .next t) :
    t.err = none := by
  cases hf : s.fetchInstr with
  | error e =>
    rw [cause_of_fetch_error hf] at hc
    cases hc
  | ok i =>
    rw [cause_of_instr hf] at hc
    rw [step_of_instr hr hf] at h
    exact (err_of_exec h hc).trans hr.1

theorem err_of_pollKey {s t : State} (h : pollKey s = .next t) : t.err = s.err := by
  obtain ⟨-, hp⟩ | ⟨k, -, hp⟩ := pollKey_eq s
  · obtain rfl := next_unique hp h
    rfl
  · obtain rfl := next_unique hp h
    rfl

/-- A step that ends with an error has changed nothing but the latch (R203, R204). -/
theorem eq_of_step_error {s t : State} (h : step s = .next t) {e : FatalError} (he : t.err = some e) :
    t = { s with err := some e } := by
  obtain hs | hw | hr := s.modes
  · obtain rfl := next_unique (step_of_stopped hs) h
    rw [← he]
  · rw [step_of_waiting hw] at h
    rw [err_of_pollKey h, hw.1] at he
    cases he
  · cases hc : s.cause with
    | none =>
      rw [err_of_step_of_no_cause hr hc h] at he
      cases he
    | some e' =>
      obtain rfl := next_unique (step_of_cause hr hc) h
      cases he
      rfl

/-- A changed latch holds the cause of a running machine. -/
theorem err_changed {s t : State} (h : step s = .next t) (hne : t.err ≠ s.err) : s.Running ∧ t.err = s.cause := by
  obtain hs | hw | hr := s.modes
  · obtain rfl := next_unique (step_of_stopped hs) h
    exact absurd rfl hne
  · rw [step_of_waiting hw] at h
    exact absurd (err_of_pollKey h) hne
  · refine ⟨hr, ?_⟩
    cases hc : s.cause with
    | none => exact err_of_step_of_no_cause hr hc h
    | some e =>
      obtain rfl := next_unique (step_of_cause hr hc) h
      rfl

end Sys2Proof.Machine

namespace Sys2Proof
open Machine

/-- Settles O8: `exec_total` and `step_total`. -/
theorem everyStepAnswersNext : Obligations.EveryStepAnswersNext := ⟨exec_total, step_total⟩

/-- Settles O9: `step_of_cause`, and `err_of_step_of_no_cause` for the step that `step_total` gives. -/
theorem raisesExactlyItsCause : Obligations.RaisesExactlyItsCause := by
  intro s hr
  refine ⟨fun e hc => step_of_cause hr hc, fun hc => ?_⟩
  obtain ⟨t, ht⟩ := step_total s
  exact ⟨t, ht, err_of_step_of_no_cause hr hc ht⟩

/-- Settles O7: bytes at `pc` that decode to `i` are what `State.fetchInstr` reads. -/
theorem stepRunsTheDecodedInstruction : Obligations.StepRunsTheDecodedInstruction := by
  intro s i herr hwait hpc _ hd
  have hf : s.fetchInstr = .ok i := State.fetchInstr_ok.2 ⟨_, State.fetch_ok.2 ⟨hpc, rfl⟩, hd⟩
  exact step_of_instr ⟨herr, hwait⟩ hf

/-- Settles O10: in each case the fetch, the decoder or the instruction's own check gives the cause, which
`step_of_cause` raises. -/
theorem errorChecksInOrder : Obligations.ErrorChecksInOrder := by
  intro s herr hwait
  have hr : s.Running := ⟨herr, hwait⟩
  refine ⟨?bounds, fun op hf => ⟨?opcode, ?overflow, ?underflow⟩⟩
  case bounds =>
    intro hpc
    have hfe : s.fetch = .error .outOfBounds := State.fetch_error.2 ⟨hpc, rfl⟩
    have hfi : s.fetchInstr = .error .outOfBounds := by rw [State.fetchInstr, State.fetchInstrWith, hfe]
    exact step_of_cause hr (cause_of_fetch_error hfi)
  case opcode =>
    intro hd
    have hfi : s.fetchInstr = .error .invalidOpcode := by
      rw [State.fetchInstr, State.fetchInstrWith, hf]
      simp only [show decodeWith strictDecode op = _ from hd]
    exact step_of_cause hr (cause_of_fetch_error hfi)
  case overflow =>
    intro nnn hd hsp
    have hfi : s.fetchInstr = .ok (.call nnn) := State.fetchInstr_ok.2 ⟨op, hf, hd⟩
    exact step_of_cause hr ((cause_of_instr hfi).trans (if_pos hsp))
  case underflow =>
    intro hd hsp
    have hfi : s.fetchInstr = .ok .ret := State.fetchInstr_ok.2 ⟨op, hf, hd⟩
    exact step_of_cause hr ((cause_of_instr hfi).trans (if_pos hsp))

/-- Settles O18: the jump to the own address leaves the state as it is. -/
theorem settledMachineStays : Obligations.SettledMachineStays := by
  rintro s ⟨hr, nnn, hf, hself⟩
  have hstep : step s = .next s := by
    rw [step_of_instr hr hf, exec_jp, State.jump_eq_self hself.symm]
  refine ⟨hstep, ?_, s, hstep, hr.1, hr.1⟩
  simp only [State.runEnd, hr.1, hr.2, hf, hself, if_true, Bool.false_eq_true, if_false]

end Sys2Proof
end

section
/-! SUPPORT. The invariant (R25, R27, R32, R34): it looks at a few parts of the state only, and each way a step can go
keeps it. -/
namespace Sys2Proof.Machine

/-- The invariant looks at memory, `pc`, the stack, the wait and the latch, and through the cause of an error at SP. -/
theorem State.Inv.congr {s t : State} (h : s.Inv) (hm : t.mem = s.mem) (hpc : t.pc = s.pc) (hst : t.stack = s.stack)
    (hsp : t.sp = s.sp) (hw : t.wait = s.wait) (hx : t.waitX = s.waitX) (he : t.err = s.err) : t.Inv where
  mem_wf := hm ▸ h.mem_wf
  pc_le := hpc ▸ h.pc_le
  slots_le n := by
    rw [State.slot, hst]
    exact h.slots_le n
  slot_zero := by
    rw [State.slot, hst]
    exact h.slot_zero
  waits hwt := by
    rw [he, hx, State.fetchInstr_congr hpc hm]
    exact h.waits (hw ▸ hwt)
  stopped e hee := by
    rw [hw, State.cause_congr hpc hm hsp]
    exact h.stopped e (he ▸ hee)

/-- A running machine meets the clauses about the wait and the latch. -/
theorem State.Inv.of_running {s : State} (hr : s.Running) (hm : s.mem.wf) (hpc : s.pc.toNat ≤ 0x10FE)
    (hs : ∀ n : Nibble, (s.slot n).toNat ≤ 0xFFE) (h0 : s.slot 0 = 0) : s.Inv where
  mem_wf := hm
  pc_le := hpc
  slots_le := hs
  slot_zero := h0
  waits hw := by
    rw [hr.2] at hw
    cases hw
  stopped e he := by
    rw [hr.1] at he
    cases he

/-- Raising the cause keeps the invariant: the cause is not the latch's matter. -/
theorem State.Inv.raised {s : State} (h : s.Inv) (hr : s.Running) {e : FatalError} (hc : s.cause = some e) :
    ({ s with err := some e } : State).Inv where
  mem_wf := h.mem_wf
  pc_le := h.pc_le
  slots_le := h.slots_le
  slot_zero := h.slot_zero
  waits hw := by
    have : s.wait = true := hw
    rw [hr.2] at this
    cases this
  stopped e' he := by
    cases he
    exact ⟨hr.2, (State.cause_congr rfl rfl rfl).trans hc⟩

theorem toNat_zextByte (b : Byte) : (zextByte b).toNat = b.toNat := BitVec.toNat_setWidth_of_le (by decide)

/-- From a `pc` that could be fetched at, no target is above 0x10FE: the highest is `0xFFF + 0xFF` (R25, R103). -/
theorem NextPc.le {s : State} {w : Word} (h : NextPc s w) (hpc : s.pc.toNat ≤ 0xFFE)
    (hs : ∀ n : Nibble, (s.slot n).toNat ≤ 0xFFE) : w.toNat ≤ 0x10FE := by
  obtain (rfl | rfl) | ⟨nnn, rfl | rfl⟩ | ⟨n, rfl⟩ := h
  · rw [BitVec.toNat_add, show (2 : Word).toNat = 2 from rfl]
    omega
  · rw [BitVec.toNat_add, show (4 : Word).toNat = 4 from rfl]
    omega
  · have := addr_lt nnn
    rw [toNat_zextAddr]
    omega
  · have := addr_lt nnn
    have := byte_lt (s.reg 0)
    rw [BitVec.toNat_add, toNat_zextAddr, toNat_zextByte]
    omega
  · have := hs n
    rw [BitVec.toNat_add, show (2 : Word).toNat = 2 from rfl]
    omega

theorem State.Inv.completed {s t : State} (h : s.Inv) (hr : s.Running) (hpc : s.pc.toNat ≤ 0xFFE)
    (hc : Completed s t) : t.Inv := by
  have hslot : ∀ n, t.slot n = s.slot n := fun n => by rw [State.slot, hc.stack, State.slot]
  exact .of_running ⟨hc.err.trans hr.1, hc.wait.trans hr.2⟩ (hc.mem_wf h.mem_wf) (hc.nextPc.le hpc h.slots_le)
    (fun n => hslot n ▸ h.slots_le n) ((hslot 0).trans h.slot_zero)

theorem State.slot_called (s : State) (nnn : Addr) (n : Nibble) :
    (s.called nnn).slot n = if n = s.sp + 1 then s.pc else s.slot n := State.slot_set s (s.sp + 1) n s.pc

/-- Below the limit the slot a call writes is not slot 0 (R27). -/
theorem sp_add_one_ne_zero {sp : Nibble} (h : sp ≠ 15) : sp + 1 ≠ 0 := by
  revert sp
  decide

theorem State.Inv.called {s : State} (h : s.Inv) (hr : s.Running) (hpc : s.pc.toNat ≤ 0xFFE) (hsp : s.sp ≠ 15)
    (nnn : Addr) : (s.called nnn).Inv := by
  refine .of_running hr h.mem_wf ?pc ?slots ?slot_zero
  case pc =>
    have := addr_lt nnn
    show (zextAddr nnn).toNat ≤ 0x10FE
    rw [toNat_zextAddr]
    omega
  case slots =>
    intro n
    rw [State.slot_called]
    split
    · exact hpc
    · exact h.slots_le n
  case slot_zero =>
    rw [State.slot_called, if_neg (sp_add_one_ne_zero hsp).symm]
    exact h.slot_zero

/-- A wait belongs to the FX0A that starts it: `pc` stays at it (R185). -/
theorem State.Inv.waitsFor {s : State} (h : s.Inv) (hr : s.Running) {x : Nibble}
    (hf : s.fetchInstr = .ok (.ldVxK x)) : ({ s with wait := true, waitX := x } : State).Inv where
  mem_wf := h.mem_wf
  pc_le := h.pc_le
  slots_le := h.slots_le
  slot_zero := h.slot_zero
  waits _ := ⟨hr.1, (State.fetchInstr_congr rfl rfl).trans hf⟩
  stopped e he := by
    have : s.err = some e := he
    rw [hr.1] at this
    cases this

theorem State.Inv.exec {s t : State} (h : s.Inv) (hr : s.Running) {i : Instr} (hf : s.fetchInstr = .ok i)
    (hx : exec i s = .next t) : t.Inv := by
  have hpc := State.pc_le_of_fetchInstr hf
  obtain hc | ⟨nnn, -, hsp, rfl⟩ | ⟨x, rfl, rfl⟩ | ⟨e, he, rfl⟩ := exec_cases hx
  · exact h.completed hr hpc hc
  · exact h.called hr hpc hsp nnn
  · exact h.waitsFor hr hf
  · exact h.raised hr ((cause_of_instr hf).trans he)

theorem State.Inv.pollKey {s t : State} (h : s.Inv) (hw : s.Waiting) (hp : pollKey s = .next t) : t.Inv := by
  obtain ⟨-, hf⟩ := h.waits hw.2
  obtain ⟨-, hk⟩ | ⟨k, -, hk⟩ := pollKey_eq s
  · obtain rfl := next_unique hk hp
    exact h
  · obtain rfl := next_unique hk hp
    exact .of_running ⟨hw.1, rfl⟩ h.mem_wf
      (NextPc.le (s := s) (.inl (.inl rfl)) (State.pc_le_of_fetchInstr hf) h.slots_le) h.slots_le h.slot_zero

theorem State.Inv.step {s t : State} (h : s.Inv) (hs : step s = .next t) : t.Inv := by
  obtain ⟨-, rfl⟩ | ⟨hw, hp⟩ | ⟨hr, e, hf, rfl⟩ | ⟨hr, i, hf, hx⟩ := step_cases hs
  · exact h
  · exact h.pollKey hw hp
  · exact h.raised hr (cause_of_fetch_error hf)
  · exact h.exec hr hf hx

theorem State.slot_reset (n : Nibble) : State.reset.slot n = 0 := Vector.getElem_replicate _

theorem inv_reset : State.reset.Inv := by
  refine .of_running ⟨rfl, rfl⟩ ⟨.nil, nofun⟩ (by decide) (fun n => ?_) (State.slot_reset 0)
  rw [State.slot_reset]
  decide

/-! The instruction the next cycle executes, and the cycle with the host's random byte (R86). -/

theorem State.nextInstrWith_eq_some {strict : Bool} {s : State} {i : Instr} :
    s.nextInstrWith strict = some i ↔ s.Running ∧ s.fetchInstrWith strict = .ok i := by
  unfold State.nextInstrWith State.Running
  cases s.err <;> cases s.wait <;> cases s.fetchInstrWith strict <;> simp [Except.toOption]

theorem State.nextInstr_eq_some {s : State} {i : Instr} :
    s.nextInstr = some i ↔ s.Running ∧ s.fetchInstr = .ok i := State.nextInstrWith_eq_some

/-- A cycle draws the host's byte for CXKK, and else is the step with the same parameters. -/
theorem cycleWith_cases (p : Params) (rand : Byte) (s : State) :
    (∃ x kk, s.nextInstrWith p.strictDecode = some (.rnd x kk) ∧ cycleWith p rand s = rndWith rand x kk s) ∨
    (∀ x kk, s.nextInstrWith p.strictDecode ≠ some (.rnd x kk)) ∧ cycleWith p rand s = stepWith p s := by
  unfold cycleWith
  split
  next x kk h => exact .inl ⟨x, kk, h, rfl⟩
  next h => exact .inr ⟨h, rfl⟩

theorem stepWith_spec (s : State) : stepWith .spec s = step s := by
  have : execWith .spec = exec := funext fun i => funext fun s => execWith_spec i s
  rw [stepWith, this]
  rfl

theorem cycle_cases (rand : Byte) (s : State) :
    (∃ x kk, s.nextInstr = some (.rnd x kk) ∧ cycle rand s = rndWith rand x kk s) ∨
    (∀ x kk, s.nextInstr ≠ some (.rnd x kk)) ∧ cycle rand s = step s := by
  rw [← stepWith_spec]
  exact cycleWith_cases .spec rand s

theorem completed_rndWith {rand : Byte} {x : Nibble} {kk : Byte} {s t : State} (h : rndWith rand x kk s = .next t) :
    Completed s t := by
  obtain rfl := Host.Outcome.next.inj h
  exact ⟨rfl, rfl, rfl, id, .inl (.inl rfl)⟩

theorem cycle_total (rand : Byte) (s : State) : ∃ t, cycle rand s = .next t := by
  obtain ⟨x, kk, -, h⟩ | ⟨-, h⟩ := cycle_cases rand s
  · exact ⟨_, h⟩
  · rw [h]
    exact step_total s

theorem State.Inv.cycle {rand : Byte} {s t : State} (h : s.Inv) (hc : cycle rand s = .next t) : t.Inv := by
  obtain ⟨x, kk, hn, hx⟩ | ⟨-, hs⟩ := cycle_cases rand s
  · obtain ⟨hr, hf⟩ := State.nextInstr_eq_some.1 hn
    exact h.completed hr (State.pc_le_of_fetchInstr hf) (completed_rndWith (hx.symm.trans hc))
  · exact h.step (hs.symm.trans hc)

/-! Bytes written by the loader (R243): memory alone changes. -/

/-- Stores into a running machine keep the invariant, which then asks of memory only its canonical form. -/
theorem State.Inv.writeBytes {s : State} (h : s.Inv) (hr : s.Running) (a : Nat) (bytes : List Byte) :
    (writeBytes s a bytes).Inv ∧ (writeBytes s a bytes).Running := by
  have hwf := wf_writeBytes h.mem_wf bytes a
  rw [writeBytes_eq]
  exact ⟨.of_running hr hwf h.pc_le h.slots_le h.slot_zero, hr⟩

/-! The transactions by name. -/

section
variable (z : Session)

theorem transact_reset : transact .reset z = .next (⟨State.reset, .empty⟩, .done) := by
  rw [transact, transactWith, Params.font_spec, resetWith_spec]

theorem transact_tickTimers : transact .tickTimers z = .next (⟨tickTimers z.state, z.window⟩, .done) := rfl

theorem transact_consumeRedraw :
    transact .consumeRedraw z = .next (⟨consumeRedraw z.state, z.window⟩, .done) := rfl

theorem transact_setKey {k : Nat} (hk : k < 16) (b : Bool) :
    transact (.setKey k b) z = .next (⟨setKey (BitVec.ofNat 4 k) b z.state, z.window⟩, .done) := if_pos hk

theorem transact_setKey_refused {k : Nat} (hk : 16 ≤ k) (b : Bool) :
    transact (.setKey k b) z = .refused (.keyIndexOutOfRange k) := if_neg (by omega)

theorem transact_cycle {rand : Byte} {t : State} (h : cycle rand z.state = .next t) :
    transact (.cycle rand) z = .next (⟨t, .closed⟩, cycleAnswer FatalError.code t) := by
  show Session.after .closed (cycleAnswer FatalError.code) (cycle rand z.state) = _
  rw [h]
  rfl

end

/-! loadProgram, with any parameters (R243, R245). -/

theorem loadProgram_fits {bytes : List Byte} (h : bytes.length ≤ 3584) (s : State) :
    loadProgram bytes s = .next (writeBytes s Config.progBase bytes) := if_neg (by simpa using h)

theorem loadProgram_tooLarge {bytes : List Byte} (h : 3584 < bytes.length) (s : State) :
    loadProgram bytes s = .fault (.programTooLarge bytes.length) := if_pos h

section
variable (p : Params) {z : Session} {bytes : List Byte}

theorem transactWith_load_closed (h : z.window = .closed) :
    transactWith p (.loadProgram bytes) z = .refused .loadOutsideLaunchWindow := if_pos h

theorem transactWith_load_open (h : z.window ≠ .closed) :
    transactWith p (.loadProgram bytes) z = z.afterLoad p.tooLargeCode (loadProgram bytes z.state) := if_neg h

theorem transactWith_load_tooLarge (h : 3584 < bytes.length) (hw : z.window ≠ .closed) :
    transactWith p (.loadProgram bytes) z = .next (z, .programTooLarge p.tooLargeCode bytes.length) := by
  rw [transactWith_load_open p hw, loadProgram_tooLarge h]
  rfl

theorem transactWith_load_loaded (h : bytes.length ≤ 3584) (hw : z.window = .loaded) :
    transactWith p (.loadProgram bytes) z = .refused .loadOutsideLaunchWindow := by
  rw [transactWith_load_open p (by simp [hw]), loadProgram_fits h]
  exact if_pos hw

theorem transactWith_load_empty (h : bytes.length ≤ 3584) (hw : z.window = .empty) :
    transactWith p (.loadProgram bytes) z = .next (⟨writeBytes z.state Config.progBase bytes, .loaded⟩, .done) := by
  rw [transactWith_load_open p (by simp [hw]), loadProgram_fits h]
  exact if_neg (by simp [hw])

variable (bytes z) in
/-- loadProgram whole: refused, too large and nothing changed, or the first program that fits. -/
theorem transactWith_load_cases :
    transactWith p (.loadProgram bytes) z = .refused .loadOutsideLaunchWindow ∨
    (∃ a, transactWith p (.loadProgram bytes) z = .next (z, a)) ∨
    (z.window ≠ .closed ∧
      transactWith p (.loadProgram bytes) z =
        .next (⟨writeBytes z.state Config.progBase bytes, .loaded⟩, .done)) := by
  by_cases hlen : bytes.length ≤ 3584
  · cases hw : z.window with
    | closed => exact .inl (transactWith_load_closed p hw)
    | loaded => exact .inl (transactWith_load_loaded p hlen hw)
    | empty => exact .inr (.inr ⟨nofun, transactWith_load_empty p hlen hw⟩)
  · by_cases hw : z.window = .closed
    · exact .inl (transactWith_load_closed p hw)
    · exact .inr (.inl ⟨_, transactWith_load_tooLarge p (by omega) hw⟩)

end

end Sys2Proof.Machine

namespace Sys2Proof
open Machine

/-- Settles O12: `State.Inv.step`, a case per way a step can go. -/
theorem stepKeepsTheInvariant : Obligations.StepKeepsTheInvariant := fun _ _ h hs => h.step hs

/-- Settles O13: the reset machine runs, its memory list is empty and its stack is zeros. -/
theorem resetMeetsTheInvariant : Obligations.ResetMeetsTheInvariant := inv_reset

/-- Settles O14: a case per transaction; ticks, keys and the redraw flag touch no part the invariant looks at, a load
comes only to a running machine, and a cycle closes the window. -/
theorem transactionsKeepTheInvariant : Obligations.TransactionsKeepTheInvariant := by
  rintro x z z' a ⟨hi, hw⟩ h
  cases x with
  | reset =>
    rw [transact_reset] at h
    cases h
    exact ⟨inv_reset, fun _ => ⟨rfl, rfl⟩⟩
  | loadProgram bytes =>
    rw [transact] at h
    obtain hl | ⟨b, hl⟩ | ⟨hopen, hl⟩ := transactWith_load_cases .spec z bytes
    · rw [hl] at h
      cases h
    · rw [hl] at h
      cases h
      exact ⟨hi, hw⟩
    · rw [hl] at h
      cases h
      obtain ⟨hi', hr'⟩ := hi.writeBytes (hw hopen) Config.progBase bytes
      exact ⟨hi', fun _ => hr'⟩
  | cycle rand =>
    obtain ⟨t, ht⟩ := cycle_total rand z.state
    rw [transact_cycle z ht] at h
    cases h
    exact ⟨hi.cycle ht, fun hn => absurd rfl hn⟩
  | tickTimers =>
    rw [transact_tickTimers] at h
    cases h
    exact ⟨hi.congr rfl rfl rfl rfl rfl rfl rfl, hw⟩
  | setKey k b =>
    by_cases hk : k < 16
    · rw [transact_setKey z hk] at h
      cases h
      exact ⟨hi.congr rfl rfl rfl rfl rfl rfl rfl, hw⟩
    · rw [transact_setKey_refused z (by omega)] at h
      cases h
  | consumeRedraw =>
    rw [transact_consumeRedraw] at h
    cases h
    exact ⟨hi.congr rfl rfl rfl rfl rfl rfl rfl, hw⟩

/-- Settles O15: the wait belongs to the FX0A at `pc`, and executing it again polls the same keys for the same
register. -/
theorem waitingIsRefetching : Obligations.WaitingIsRefetching := by
  intro s hi hw
  obtain ⟨he, hf⟩ := hi.waits hw
  have hf' : ({ s with wait := false } : State).fetchInstr = .ok (.ldVxK s.waitX) :=
    (State.fetchInstr_congr rfl rfl).trans hf
  have hr' : ({ s with wait := false } : State).Running := ⟨he, rfl⟩
  rw [step_of_waiting ⟨he, hw⟩, step_of_instr hr' hf']
  obtain ⟨hk, hp⟩ | ⟨k, hk, hp⟩ := pollKey_eq s
  · obtain ⟨-, hx⟩ | ⟨k, hk', -⟩ := exec_ldVxK s.waitX { s with wait := false }
    · rw [hp, hx, ← hw]
    · exact absurd (hk.symm.trans hk') nofun
  · obtain ⟨hk', -⟩ | ⟨k', hk', hx⟩ := exec_ldVxK s.waitX { s with wait := false }
    · exact absurd (hk.symm.trans hk') nofun
    · cases hk.symm.trans hk'
      rw [hp, hx]
      rfl

/-- Settles O16: what raised the latched error is still there, so the machine without the latch raises it. -/
theorem latchAddsNoBehaviour : Obligations.LatchAddsNoBehaviour := by
  intro s hi hne
  obtain ⟨e, he⟩ := Option.ne_none_iff_exists'.1 hne
  obtain ⟨hw, hc⟩ := hi.stopped e he
  have hc' : ({ s with err := none } : State).cause = some e := (State.cause_congr rfl rfl rfl).trans hc
  have hr' : ({ s with err := none } : State).Running := ⟨rfl, hw⟩
  rw [step_of_cause hr' hc', ← he]

end Sys2Proof
end

section
/-! SUPPORT. Frames (R7): how they compose, the frame of each update of the state, and from them the frame of every
instruction. -/
namespace Sys2Proof.Machine

/-! Frames compose and widen. -/

theorem Part.same_trans {p : Part} {s t u : State} (h : p.same s t) (h' : p.same t u) : p.same s u := by
  cases p
  case mem => exact fun a => (h' a).trans (h a)
  all_goals exact Eq.trans h' h

/-- A frame in which memory, where it is kept, is kept as the list of its cells. -/
structure StrictFrame (dests : List Nibble) (parts : List Part) (s t : State) : Prop where
  frame : Frame dests parts s t
  mem : Part.mem ∉ parts → t.mem = s.mem

section
variable {d d' : List Nibble} {p p' : List Part} {s t u : State}

theorem Frame.mono (h : Frame d p s t) (hd : d ⊆ d') (hp : p ⊆ p') : Frame d' p' s t :=
  ⟨fun r hr => h.1 r (fun hr' => hr (hd hr')), fun q hq => h.2 q (fun hq' => hq (hp hq'))⟩

theorem StrictFrame.trans (h : StrictFrame d p s t) (h' : StrictFrame d' p' t u) :
    StrictFrame (d ++ d') (p ++ p') s u where
  frame := by
    constructor
    · intro r hr
      rw [List.mem_append, not_or] at hr
      exact (h'.frame.1 r hr.2).trans (h.frame.1 r hr.1)
    · intro q hq
      rw [List.mem_append, not_or] at hq
      exact Part.same_trans (h.frame.2 q hq.1) (h'.frame.2 q hq.2)
  mem hm := by
    rw [List.mem_append, not_or] at hm
    exact (h'.mem hm.2).trans (h.mem hm.1)

theorem StrictFrame.mono (h : StrictFrame d p s t) (hd : d ⊆ d') (hp : p ⊆ p') : StrictFrame d' p' s t :=
  ⟨h.frame.mono hd hp, fun hm => h.mem fun hm' => hm (hp hm')⟩

/-- A register not written is kept. -/
theorem StrictFrame.reg (h : StrictFrame d p s t) {r : Nibble} (hr : r ∉ d) : t.reg r = s.reg r := h.frame.1 r hr

/-- A state that differs in no register and in memory only if memory is among the parts. For an update of the state
written out as a record, each other part is looked up in it. -/
theorem StrictFrame.of_parts (hv : t.v = s.v := by rfl)
    (hp : ∀ q : Part, q ∉ p → q ≠ .mem → q.same s t := by
      intro q _ _
      cases q <;> simp_all [Part.same, State.called, State.returned])
    (hm : Part.mem ∉ p → t.mem = s.mem := by exact fun _ => rfl) : StrictFrame [] p s t := by
  refine ⟨⟨fun r _ => by simp [State.reg, hv], fun q hq => ?_⟩, hm⟩
  by_cases h : q = .mem
  · subst h
    exact State.memRead_congr (hm hq)
  · exact hp q hq h

end

theorem StrictFrame.refl (s : State) : StrictFrame [] [] s s := .of_parts

/-! The frame of each update. -/

section
variable (s : State)

theorem frame_setReg (x : Nibble) (b : Byte) : StrictFrame [x] [] s (s.setReg x b) := by
  refine ⟨⟨fun r hr => State.reg_setReg_ne s (by simpa using hr) b, fun q _ => ?_⟩, fun _ => rfl⟩
  cases q
  case mem => exact fun _ => rfl
  all_goals rfl

theorem frame_setFlag (f : Byte) : StrictFrame [vf] [] s (s.setFlag f) := frame_setReg s vf f

theorem frame_jump (w : Word) : StrictFrame [] [.pc] s (s.jump w) := .of_parts

theorem frame_advance : StrictFrame [] [.pc] s s.advance := frame_jump s _

theorem frame_skipIf (c : Bool) : StrictFrame [] [.pc] s (s.skipIf c) := frame_jump s _

theorem frame_setI (w : Word) : StrictFrame [] [.i] s (s.setI w) := .of_parts

theorem frame_err (e : Option FatalError) : StrictFrame [] [.err] s { s with err := e } := .of_parts

theorem frame_mem (m : Memory) : StrictFrame [] [.mem] s { s with mem := m } :=
  .of_parts (hm := fun h => absurd (by simp) h)

theorem frame_screen (fb : Framebuffer) : StrictFrame [] [.fb, .redraw] s { s with fb := fb, redraw := true } :=
  .of_parts

theorem frame_clearScreen : StrictFrame [] [.fb, .redraw] s s.clearScreen := frame_screen s fbClear

theorem frame_dt (b : Byte) : StrictFrame [] [.dt] s { s with dt := b } := .of_parts

theorem frame_st (b : Byte) : StrictFrame [] [.st] s { s with st := b } := .of_parts

theorem frame_draws (n : Nat) : StrictFrame [] [.draws] s { s with draws := n } := .of_parts

theorem frame_wait (b : Bool) : StrictFrame [] [.wait] s { s with wait := b } := .of_parts

theorem frame_waitsFor (x : Nibble) : StrictFrame [] [.wait, .waitX] s { s with wait := true, waitX := x } := .of_parts

theorem frame_key (key : Vector Bool 16) : StrictFrame [] [.key] s { s with key := key } := .of_parts

theorem frame_redraw (b : Bool) : StrictFrame [] [.redraw] s { s with redraw := b } := .of_parts

theorem frame_called (nnn : Addr) : StrictFrame [] [.pc, .sp, .stack] s (s.called nnn) := .of_parts

theorem frame_returned : StrictFrame [] [.pc, .sp] s s.returned := .of_parts

/-- A register written and the instruction completed. -/
theorem frame_setReg_advance (x : Nibble) (b : Byte) : StrictFrame [x] [.pc] s (s.setReg x b).advance :=
  (frame_setReg s x b).trans (frame_advance _)

/-- VF written, then a register, and the instruction completed. -/
theorem frame_setFlag_setReg (x : Nibble) (f b : Byte) :
    StrictFrame [vf, x] [.pc] s ((s.setFlag f).setReg x b).advance :=
  (frame_setFlag s f).trans (frame_setReg_advance _ x b)

/-- The memory transfers out of the registers. -/
theorem frame_mem_advance (m : Memory) : StrictFrame [] [.mem, .pc] s { s with mem := m, pc := s.pc + 2 } :=
  (frame_mem s m).trans (frame_jump _ _)

end

/-- The registers FX65 writes are those up to X. -/
theorem mem_destsOf_loadRegs {x r : Nibble} : r ∈ destsOf (.loadRegs x) ↔ r ≤ x := by
  have hr := nibble_lt r
  have hx := nibble_lt x
  simp only [destsOf, List.mem_map, List.mem_range, BitVec.le_def]
  constructor
  · rintro ⟨k, hk, rfl⟩
    rw [BitVec.toNat_ofNat]
    omega
  · intro h
    exact ⟨r.toNat, by omega, by simp⟩

theorem State.reg_loadUpTo_le (s : State) {x r : Nibble} (h : r ≤ x) :
    (s.loadUpTo (x.toNat + 1)).reg r = s.memRead (s.ea r.toNat) := by
  have hx := nibble_lt x
  have := BitVec.le_def.1 h
  rw [State.reg_loadUpTo s (by omega), if_pos (by omega)]

theorem State.reg_loadUpTo_gt (s : State) {x r : Nibble} (h : ¬ r ≤ x) :
    (s.loadUpTo (x.toNat + 1)).reg r = s.reg r := by
  have hx := nibble_lt x
  rw [BitVec.le_def] at h
  rw [State.reg_loadUpTo s (by omega), if_neg (by omega)]

theorem frame_loadUpTo (s : State) (x : Nibble) :
    StrictFrame (destsOf (.loadRegs x)) [] s (s.loadUpTo (x.toNat + 1)) := by
  refine ⟨⟨fun r hr => State.reg_loadUpTo_gt s (mt mem_destsOf_loadRegs.2 hr), fun q _ => ?_⟩, fun _ => ?_⟩
  · rw [State.loadUpTo_eq]
    cases q
    case mem => exact fun _ => rfl
    all_goals rfl
  · rw [State.loadUpTo_eq]

/-! The frame of every instruction. -/

/-- The parts besides the general registers that an instruction may write (R35, and ERR by R207 and R208). -/
def partsOf : Instr → List Part
  | .cls | .drw _ _ _ => [.fb, .redraw, .pc]
  | .ret => [.pc, .sp, .err]
  | .call _ => [.pc, .sp, .stack, .err]
  | .ldI _ | .addI _ | .ldF _ => [.i, .pc]
  | .rnd _ _ => [.pc, .draws]
  | .ldVxK _ => [.pc, .wait, .waitX]
  | .ldDTVx _ => [.dt, .pc]
  | .ldSTVx _ => [.st, .pc]
  | .ldB _ | .storeRegs _ => [.mem, .pc]
  | .jp _ | .jpV0 _ | .seImm _ _ | .sneImm _ _ | .seReg _ _ | .sneReg _ _ | .skp _ | .sknp _ | .ldImm _ _ | .addImm _ _
  | .ldReg _ _ | .orReg _ _ | .andReg _ _ | .xorReg _ _ | .addReg _ _ | .sub _ _ | .shr _ _ | .subn _ _ | .shl _ _
  | .ldVxDT _ | .loadRegs _ => [.pc]

/-- An instruction writes its own registers and parts only. -/
theorem exec_frame {i : Instr} {s t : State} (h : exec i s = .next t) :
    StrictFrame (destsOf i) (partsOf i) s t := by
  cases i
  case call nnn =>
    by_cases hsp : s.sp = 15
    · obtain rfl := next_unique (exec_call_full hsp nnn) h
      exact (frame_err s _).mono (by simp) (by simp [partsOf])
    · obtain rfl := next_unique (exec_call_below hsp nnn) h
      exact (frame_called s nnn).mono (by simp) (by simp [partsOf])
  case ret =>
    by_cases hsp : s.sp = 0
    · obtain rfl := next_unique (exec_ret_empty hsp) h
      exact (frame_err s _).mono (by simp) (by simp [partsOf])
    · obtain rfl := next_unique (exec_ret_above hsp) h
      exact (frame_returned s).mono (by simp) (by simp [partsOf])
  case ldVxK x =>
    obtain ⟨-, hx⟩ | ⟨k, -, hx⟩ := exec_ldVxK x s
    · obtain rfl := next_unique hx h
      exact (frame_waitsFor s x).mono (by simp) (by simp [partsOf])
    · obtain rfl := next_unique hx h
      exact (frame_setReg_advance s x _).mono (by simp [destsOf]) (by simp [partsOf])
  case ldB x =>
    obtain ⟨m, hx, -⟩ := execLdB_eq x s
    obtain rfl := next_unique hx h
    exact frame_mem_advance s m
  case storeRegs x =>
    obtain ⟨m, hx, -⟩ := execStoreRegs_eq x s
    obtain rfl := next_unique hx h
    exact frame_mem_advance s m
  case loadRegs x =>
    obtain rfl := next_unique (exec_loadRegs x s) h
    have hf := (frame_loadUpTo s x).trans (frame_advance _)
    rwa [List.append_nil] at hf
  all_goals obtain rfl := Host.Outcome.next.inj h
  case jp | jpV0 => exact frame_jump s _
  case seImm | sneImm | seReg | sneReg | skp | sknp => exact frame_skipIf s _
  case ldI | addI | ldF => exact (frame_setI s _).trans (frame_advance _)
  case ldImm | addImm | ldReg | orReg | andReg | xorReg | ldVxDT => exact frame_setReg_advance s _ _
  case addReg | sub | shr | subn | shl => exact frame_setFlag_setReg s _ _ _
  case rnd => exact (frame_setReg_advance s _ _).trans (frame_draws _ _)
  case cls => exact (frame_clearScreen s).trans (frame_advance _)
  case drw => exact (frame_screen s _).trans ((frame_setFlag _ _).trans (frame_advance _))
  case ldDTVx => exact (frame_dt s _).trans (frame_advance _)
  case ldSTVx => exact (frame_st s _).trans (frame_advance _)

end Sys2Proof.Machine
end

section
/-! SUPPORT. The frames the obligations ask for, each from `exec_frame` or from the two ways of a call, a return and
FX0A; and what a changed part says of the step that changed it (R22, R35). -/
namespace Sys2Proof.Machine

/-- The frame of an instruction whose registers and parts are known. -/
theorem exec_frame_of {d : List Nibble} {p : List Part} {i : Instr} {s t : State} (h : exec i s = .next t)
    (hi : destsOf i = d ∧ partsOf i = p) : Frame d p s t := by
  obtain ⟨rfl, rfl⟩ := hi
  exact (exec_frame h).frame

/-! The bytes of the two stores. -/

theorem memRead_exec_ldB {x : Nibble} {s t : State} (h : exec (.ldB x) s = .next t) {a : Addr}
    (ha : ∀ k < 3, a ≠ s.ea k) : t.memRead a = s.memRead a := by
  obtain rfl := next_unique (exec_ldB x s) h
  rw [State.memRead_advance,
    State.memRead_storeDigits_ne s _ (ha 0 (by decide)) (ha 1 (by decide)) (ha 2 (by decide))]

theorem memRead_exec_storeRegs {x : Nibble} {s t : State} (h : exec (.storeRegs x) s = .next t) {a : Addr}
    (ha : ∀ k < x.toNat + 1, a ≠ s.ea k) : t.memRead a = s.memRead a := by
  have hx := nibble_lt x
  obtain rfl := next_unique (exec_storeRegs x s) h
  rw [State.memRead_advance, State.memRead_storeUpTo s (by omega) a ha]

end Sys2Proof.Machine

namespace Sys2Proof
open Machine

/-- Settles O48: these are the instructions whose frame is `[x]` and `pc`. -/
theorem plainRegisterWritersFrame : Obligations.PlainRegisterWritersFrame := by
  intro x y kk s t i hi h
  refine exec_frame_of h ?_
  revert i
  simp [destsOf, partsOf]

/-- Settles O49: these are the instructions whose frame is `[vf, x]` and `pc`. -/
theorem flagWritersFrame : Obligations.FlagWritersFrame := by
  intro x y s t i hi h
  have hf : Frame [vf, x] [.pc] s t := by
    refine exec_frame_of h ?_
    revert i
    simp [destsOf, partsOf]
  exact hf.mono (by simp) (by simp)

/-- Settles O50: no register in any of these frames. -/
theorem jumpsSkipsAndIndexWritersFrame : Obligations.JumpsSkipsAndIndexWritersFrame := by
  intro x y kk nnn s t
  constructor
  · intro i hi h
    refine exec_frame_of h ?_
    revert i
    simp [destsOf, partsOf]
  · intro i hi h
    refine exec_frame_of h ?_
    revert i
    simp [destsOf, partsOf]

/-- Settles O51: the two ways of a call and the two of a return. -/
theorem callAndRetFrame : Obligations.CallAndRetFrame := by
  intro nnn s t
  refine ⟨fun h hsp => ?_, fun h hsp => ?_, fun h hsp => ?_, fun h hsp => ?_⟩
  · obtain rfl := next_unique (exec_call_below hsp nnn) h
    exact ⟨(frame_called s nnn).frame, fun n hn => by rw [State.slot_called, if_neg hn]⟩
  · obtain rfl := next_unique (exec_ret_above hsp) h
    exact (frame_returned s).frame
  · obtain rfl := next_unique (exec_call_full hsp nnn) h
    exact (frame_err s _).frame
  · obtain rfl := next_unique (exec_ret_empty hsp) h
    exact (frame_err s _).frame

/-- Settles O52: `exec_frame` for the parts, the laws of the two stores for the bytes. -/
theorem memoryTransfersFrame : Obligations.MemoryTransfersFrame := by
  intro x s t
  refine ⟨fun h => ⟨?_, fun a ha => memRead_exec_ldB h ha⟩, fun h => ⟨?_, fun a ha => memRead_exec_storeRegs h ha⟩,
    fun h => ⟨fun r hr => ?_, fun p hp => ?_⟩⟩
  · exact (exec_frame h).frame.mono (by simp [destsOf]) (by simp [partsOf])
  · exact (exec_frame h).frame.mono (by simp [destsOf]) (by simp [partsOf])
  · exact (exec_frame h).reg fun hm => absurd (mem_destsOf_loadRegs.1 hm) (by simpa using hr)
  · exact (exec_frame h).frame.2 p (by simpa [partsOf] using hp)

/-- Settles O53: `exec_frame`, and for FX0A its two ways apart. -/
theorem displayTimerRandomAndKeyFrame : Obligations.DisplayTimerRandomAndKeyFrame := by
  intro x y n kk s t
  refine ⟨fun h => (exec_frame h).frame, fun h => (exec_frame h).frame, fun h => (exec_frame h).frame,
    fun h => (exec_frame h).frame, fun h => (exec_frame h).frame, fun h => ?_⟩
  obtain ⟨-, hx⟩ | ⟨k, -, hx⟩ := exec_ldVxK x s
  · obtain rfl := next_unique hx h
    exact .inr (frame_waitsFor s x).frame
  · obtain rfl := next_unique hx h
    exact .inl (frame_setReg_advance s x _).frame

end Sys2Proof

namespace Sys2Proof.Machine

/-! What a step that changes a part has done. -/

/-- The wait that a pressed key ends. -/
def State.waitEnded (s : State) (k : Nibble) : State :=
  { (s.setReg s.waitX (zextNibble k)).advance with wait := false }

theorem frame_waitEnded (s : State) (k : Nibble) : StrictFrame [s.waitX] [.pc, .wait] s (s.waitEnded k) :=
  (frame_setReg_advance s s.waitX _).trans (frame_wait _ false)

theorem frame_pollKey {s t : State} (h : pollKey s = .next t) : StrictFrame [s.waitX] [.pc, .wait] s t := by
  obtain ⟨-, hp⟩ | ⟨k, -, hp⟩ := pollKey_eq s
  · obtain rfl := next_unique hp h
    exact (StrictFrame.refl s).mono (by simp) (by simp)
  · obtain rfl := next_unique hp h
    exact frame_waitEnded s k

/-- Everything a step can have done, with the instruction it ran by name. -/
theorem step_ran {s t : State} (h : step s = .next t) :
    t = s ∨ (s.Waiting ∧ pollKey s = .next t) ∨ (s.Running ∧ ∃ e, t = { s with err := some e }) ∨
      ∃ j, s.nextInstr = some j ∧ exec j s = .next t := by
  obtain ⟨-, rfl⟩ | ⟨hw, hp⟩ | ⟨hr, e, -, rfl⟩ | ⟨hr, j, hf, hx⟩ := step_cases h
  · exact .inl rfl
  · exact .inr (.inl ⟨hw, hp⟩)
  · exact .inr (.inr (.inl ⟨hr, e, rfl⟩))
  · exact .inr (.inr (.inr ⟨j, State.nextInstr_eq_some.2 ⟨hr, hf⟩, hx⟩))

/-- A changed register was written by the instruction that ran, or by the wait that ended. -/
theorem reg_changed {s t : State} (h : step s = .next t) {r : Nibble} (hne : t.reg r ≠ s.reg r) :
    (∃ j, s.nextInstr = some j ∧ exec j s = .next t ∧ r ∈ destsOf j) ∨ (s.Waiting ∧ r = s.waitX) := by
  obtain rfl | ⟨hw, hp⟩ | ⟨-, e, rfl⟩ | ⟨j, hj, hx⟩ := step_ran h
  · exact absurd rfl hne
  · refine .inr ⟨hw, ?_⟩
    by_contra hr
    exact hne ((frame_pollKey hp).reg (by simpa using hr))
  · exact absurd rfl hne
  · refine .inl ⟨j, hj, hx, ?_⟩
    by_contra hr
    exact hne ((exec_frame hx).reg hr)

/-- A changed part other than `pc`, WAIT and ERR is one that the instruction that ran may write. -/
theorem part_changed {s t : State} (h : step s = .next t) {p : Part} (hp : p ∉ [.pc, .wait, .err])
    (hne : ¬ p.same s t) : ∃ j, s.nextInstr = some j ∧ exec j s = .next t ∧ p ∈ partsOf j := by
  simp only [List.mem_cons, List.not_mem_nil, or_false, not_or] at hp
  obtain ⟨hpc, hwait, herr⟩ := hp
  obtain rfl | ⟨hw, hk⟩ | ⟨-, e, rfl⟩ | ⟨j, hj, hx⟩ := step_ran h
  · exact absurd ((StrictFrame.refl t).frame.2 p (by simp)) hne
  · exact absurd ((frame_pollKey hk).frame.2 p (by simp [hpc, hwait])) hne
  · exact absurd ((frame_err s _).frame.2 p (by simpa using herr)) hne
  · refine ⟨j, hj, hx, ?_⟩
    by_contra hm
    exact hne ((exec_frame hx).frame.2 p hm)

/-- The cells of memory change, even in their listing, by an instruction that may write memory. -/
theorem mem_changed {s t : State} (h : step s = .next t) (hne : t.mem ≠ s.mem) :
    ∃ j, s.nextInstr = some j ∧ Part.mem ∈ partsOf j := by
  obtain rfl | ⟨hw, hk⟩ | ⟨-, e, rfl⟩ | ⟨j, hj, hx⟩ := step_ran h
  · exact absurd rfl hne
  · exact absurd ((frame_pollKey hk).mem (by simp)) hne
  · exact absurd rfl hne
  · refine ⟨j, hj, ?_⟩
    by_contra hm
    exact hne ((exec_frame hx).mem hm)

/-! Which instructions may write a part. -/

section
variable {j : Instr}

theorem key_notMem_partsOf : Part.key ∉ partsOf j := by
  cases j <;> simp [partsOf]

theorem i_mem_partsOf (h : Part.i ∈ partsOf j) : (∃ nnn, j = .ldI nnn) ∨ ∃ x, j = .addI x ∨ j = .ldF x := by
  cases j <;> simp_all [partsOf]

theorem stack_mem_partsOf (h : Part.stack ∈ partsOf j) : ∃ nnn, j = .call nnn := by
  cases j <;> simp_all [partsOf]

theorem sp_mem_partsOf (h : Part.sp ∈ partsOf j) : j = .ret ∨ ∃ nnn, j = .call nnn := by
  cases j <;> simp_all [partsOf]

theorem dt_mem_partsOf (h : Part.dt ∈ partsOf j) : ∃ x, j = .ldDTVx x := by
  cases j <;> simp_all [partsOf]

theorem st_mem_partsOf (h : Part.st ∈ partsOf j) : ∃ x, j = .ldSTVx x := by
  cases j <;> simp_all [partsOf]

theorem screen_mem_partsOf (h : Part.fb ∈ partsOf j ∨ Part.redraw ∈ partsOf j) :
    j = .cls ∨ ∃ x y n, j = .drw x y n := by
  cases j <;> simp_all [partsOf]

theorem wait_mem_partsOf (h : Part.wait ∈ partsOf j ∨ Part.waitX ∈ partsOf j) : ∃ x, j = .ldVxK x := by
  cases j <;> simp_all [partsOf]

theorem mem_mem_partsOf (h : Part.mem ∈ partsOf j) : ∃ x, j = .ldB x ∨ j = .storeRegs x := by
  cases j <;> simp_all [partsOf]

theorem draws_mem_partsOf (h : Part.draws ∈ partsOf j) : ∃ x kk, j = .rnd x kk := by
  cases j <;> simp_all [partsOf]

end

/-- A started wait: FX0A of a running machine with no key pressed leaves WAIT set for its X. -/
theorem waits_of_exec_ldVxK {x : Nibble} {s t : State} (h : exec (.ldVxK x) s = .next t)
    (hne : t.wait ≠ s.wait ∨ t.waitX ≠ s.waitX) : t.wait = true ∧ t.waitX = x := by
  obtain ⟨-, hx⟩ | ⟨k, -, hx⟩ := exec_ldVxK x s
  · obtain rfl := next_unique hx h
    exact ⟨rfl, rfl⟩
  · obtain rfl := next_unique hx h
    simp at hne

/-- A step that changes WAIT ran FX0A or ended a wait. -/
theorem wait_changed {s t : State} (h : step s = .next t) (hne : t.wait ≠ s.wait) :
    (t.wait = true ∧ ∃ x, s.nextInstr = some (.ldVxK x)) ∨ (s.Waiting ∧ t.wait = false) := by
  obtain rfl | ⟨hw, -⟩ | ⟨-, e, rfl⟩ | ⟨j, hj, hx⟩ := step_ran h
  · exact absurd rfl hne
  · rw [hw.2] at hne
    exact .inr ⟨hw, by simpa using hne⟩
  · exact absurd rfl hne
  · have hm : Part.wait ∈ partsOf j := by
      by_contra hm
      exact hne ((exec_frame hx).frame.2 .wait hm)
    obtain ⟨x, rfl⟩ := wait_mem_partsOf (.inl hm)
    exact .inl ⟨(waits_of_exec_ldVxK hx (.inl hne)).1, x, hj⟩

/-- No step clears REDRAW: the two instructions that write it set it (R164, R165). -/
theorem redraw_of_step {s t : State} (h : step s = .next t) (hs : s.redraw = true) : t.redraw = true := by
  by_contra hne
  obtain ⟨j, -, hx, hm⟩ := part_changed h (p := .redraw) (by simp) (fun he => hne (he.trans hs))
  obtain rfl | ⟨x, y, n, rfl⟩ := screen_mem_partsOf (.inr hm)
  · obtain rfl := Host.Outcome.next.inj hx
    exact hne rfl
  · obtain rfl := Host.Outcome.next.inj hx
    exact hne rfl

end Sys2Proof.Machine

namespace Sys2Proof
open Machine

/-- Settles O54: a changed part or register names the instruction that ran (`part_changed`, `reg_changed`), and
`partsOf` says which instructions those are. -/
theorem onlyNamedInstructionsWrite : Obligations.OnlyNamedInstructionsWrite := by
  intro s t h
  refine ⟨?key, redraw_of_step h, ?reg, ?i, ?pc, ?stack, ?sp, ?dt, ?st, ?screen, wait_changed h, ?waitX,
    err_changed h, ?mem, ?draws⟩
  case key =>
    by_contra hne
    obtain ⟨j, -, -, hm⟩ := part_changed h (p := .key) (by simp) hne
    exact key_notMem_partsOf hm
  case reg =>
    intro r hne
    exact (reg_changed h hne).imp_left fun ⟨j, hj, _, hm⟩ => ⟨j, hj, hm⟩
  case i =>
    intro hne
    obtain ⟨j, hj, -, hm⟩ := part_changed h (p := .i) (by simp) hne
    exact ⟨j, hj, i_mem_partsOf hm⟩
  case pc =>
    intro hne
    by_contra he
    obtain ⟨e, he⟩ := Option.ne_none_iff_exists'.1 he
    exact hne (by rw [eq_of_step_error h he])
  case stack =>
    intro hne
    obtain ⟨j, hj, -, hm⟩ := part_changed h (p := .stack) (by simp) hne
    obtain ⟨nnn, rfl⟩ := stack_mem_partsOf hm
    exact ⟨nnn, hj⟩
  case sp =>
    intro hne
    obtain ⟨j, hj, -, hm⟩ := part_changed h (p := .sp) (by simp) hne
    obtain rfl | ⟨nnn, rfl⟩ := sp_mem_partsOf hm
    · exact .inl hj
    · exact .inr ⟨nnn, hj⟩
  case dt =>
    intro hne
    obtain ⟨j, hj, hx, hm⟩ := part_changed h (p := .dt) (by simp) hne
    obtain ⟨x, rfl⟩ := dt_mem_partsOf hm
    exact ⟨x, hj, by rw [← next_unique (exec_ldDTVx x s) hx]; rfl⟩
  case st =>
    intro hne
    obtain ⟨j, hj, hx, hm⟩ := part_changed h (p := .st) (by simp) hne
    obtain ⟨x, rfl⟩ := st_mem_partsOf hm
    exact ⟨x, hj, by rw [← next_unique (exec_ldSTVx x s) hx]; rfl⟩
  case screen =>
    have key : ∀ j, s.nextInstr = some j → (Part.fb ∈ partsOf j ∨ Part.redraw ∈ partsOf j) →
        s.nextInstr = some .cls ∨ ∃ x y n, s.nextInstr = some (.drw x y n) := by
      intro j hj hm
      rw [hj]
      obtain rfl | ⟨x, y, n, rfl⟩ := screen_mem_partsOf hm
      · exact .inl rfl
      · exact .inr ⟨x, y, n, rfl⟩
    rintro (hne | hne)
    · obtain ⟨j, hj, -, hm⟩ := part_changed h (p := .fb) (by simp) hne
      exact key j hj (.inl hm)
    · obtain ⟨j, hj, -, hm⟩ := part_changed h (p := .redraw) (by simp) hne
      exact key j hj (.inr hm)
  case waitX =>
    intro hne
    obtain ⟨j, hj, hx, hm⟩ := part_changed h (p := .waitX) (by simp) hne
    obtain ⟨x, rfl⟩ := wait_mem_partsOf (.inr hm)
    obtain ⟨hw, hwx⟩ := waits_of_exec_ldVxK hx (.inr hne)
    exact ⟨hw, hwx ▸ hj⟩
  case mem =>
    intro hne
    obtain ⟨j, hj, hm⟩ := mem_changed h hne
    obtain ⟨x, rfl | rfl⟩ := mem_mem_partsOf hm
    · exact ⟨x, .inl hj⟩
    · exact ⟨x, .inr hj⟩
  case draws =>
    intro hne
    obtain ⟨j, hj, hx, hm⟩ := part_changed h (p := .draws) (by simp) hne
    obtain ⟨x, kk, rfl⟩ := draws_mem_partsOf hm
    exact ⟨x, kk, hj, by rw [← next_unique (exec_rnd x kk s) hx]⟩

end Sys2Proof
end

section
/-! SUPPORT. The results of control transfer, skips, CXKK, the timers and FX1E (R100, R102, R103, R112, R113, R122,
R151, R180 to R187). -/
namespace Sys2Proof.Machine

/-! SP below and above its limits (R27). -/

theorem toNat_sp_add_one {sp : Nibble} (h : sp ≠ 15) : (sp + 1).toNat = sp.toNat + 1 := by
  revert sp
  decide

theorem toNat_sp_sub_one {sp : Nibble} (h : sp ≠ 0) : (sp - 1).toNat + 1 = sp.toNat := by
  revert sp
  decide

theorem State.slot_congr {s t : State} (hst : t.stack = s.stack) (n : Nibble) : t.slot n = s.slot n := by
  rw [State.slot, hst, State.slot]

theorem State.slot_called_top (s : State) (nnn : Addr) : (s.called nnn).slot (s.sp + 1) = s.pc := by
  rw [State.slot_called, if_pos rfl]

/-- A fetch beyond 0xFFE is the cause of OutOfBounds. -/
theorem cause_of_pc_gt {s : State} (h : 0xFFE < s.pc.toNat) : s.cause = some .outOfBounds := by
  have hf : s.fetch = .error .outOfBounds := State.fetch_error.2 ⟨h, rfl⟩
  exact cause_of_fetch_error (by rw [State.fetchInstr, State.fetchInstrWith, hf])

/-- The target of BNNN fits a word unreduced. -/
theorem toNat_jpV0 (nnn : Addr) (b : Byte) : (zextAddr nnn + zextByte b).toNat = nnn.toNat + b.toNat := by
  have := addr_lt nnn
  have := byte_lt b
  rw [BitVec.toNat_add, toNat_zextAddr, toNat_zextByte]
  omega

/-- The key that VX names is the one of its low nibble (R186). -/
theorem State.keyOf_eq {s : State} {x k : Nibble} (h : k.toNat = (s.reg x).toNat % 16) :
    s.keyOf x = s.key[k.toNat]'(nibble_lt k) := by
  have hk : lowNibble (s.reg x) = k := BitVec.eq_of_toNat_eq ((BitVec.toNat_setWidth 4 _).trans h.symm)
  subst hk
  rfl

/-- The byte of the host goes to CXKK. -/
theorem cycle_of_rnd {s : State} (hr : s.Running) {x : Nibble} {kk : Byte} (hf : s.fetchInstr = .ok (.rnd x kk))
    (rand : Byte) : cycle rand s = rndWith rand x kk s := by
  have hn : s.nextInstr = some (.rnd x kk) := State.nextInstr_eq_some.2 ⟨hr, hf⟩
  obtain ⟨x', kk', hn', hc⟩ | ⟨hno, -⟩ := cycle_cases rand s
  · rw [hn] at hn'
    cases hn'
    exact hc
  · exact absurd hn (hno x kk)

/-- The state after CXKK with the random byte given (R122). -/
def State.drawn (s : State) (rand : Byte) (x : Nibble) (kk : Byte) : State :=
  { (s.setReg x (rand &&& kk)).advance with draws := s.draws + 1 }

theorem rndWith_eq (rand : Byte) (x : Nibble) (kk : Byte) (s : State) :
    rndWith rand x kk s = .next (s.drawn rand x kk) := rfl

theorem State.reg_drawn (s : State) (rand : Byte) (x : Nibble) (kk : Byte) :
    (s.drawn rand x kk).reg x = rand &&& kk := State.reg_advance_setReg_self s x _

theorem frame_drawn (s : State) (rand : Byte) (x : Nibble) (kk : Byte) :
    StrictFrame [x] [.pc, .draws] s (s.drawn rand x kk) := (frame_setReg_advance s x _).trans (frame_draws _ _)

theorem and_and_not (rand kk : Byte) : rand &&& kk &&& ~~~kk = 0 := by
  rw [BitVec.and_assoc, BitVec.and_not_self]
  exact BitVec.and_zero

end Sys2Proof.Machine

namespace Sys2Proof
open Machine

/-- Settles O20: the two ways of a call. -/
theorem callPushesItsOwnAddress : Obligations.CallPushesItsOwnAddress := by
  refine ⟨spelledBy_row (.call 0), fun nnn s => ⟨fun hsp => ?_, fun hsp => exec_call_full hsp nnn⟩⟩
  refine ⟨s.called nnn, exec_call_below hsp nnn, toNat_sp_add_one hsp, s.slot_called_top nnn, fun n hn => ?_,
    toNat_zextAddr nnn⟩
  exact (s.slot_called nnn n).trans (if_neg hn)

/-- Settles O21: the two ways of a return. -/
theorem retReturnsAfterTheCall : Obligations.RetReturnsAfterTheCall := by
  refine ⟨spelledBy_row .ret, fun s => ⟨fun hsp => ?_, fun hsp => exec_ret_empty hsp⟩⟩
  exact ⟨_, exec_ret_above hsp, rfl, toNat_sp_sub_one hsp, rfl⟩

/-- Settles O22: the slot SP names after the call holds the call's address, and SP is not 0. -/
theorem retUndoesCall : Obligations.RetUndoesCall := by
  intro nnn s t u hsp h hst husp
  obtain rfl := next_unique (exec_call_below hsp nnn) h
  have husp : u.sp = s.sp + 1 := husp
  have hslot : u.slot u.sp = s.pc := by
    rw [State.slot_congr hst, husp, State.slot_called_top]
  have hne : u.sp ≠ 0 := husp ▸ sp_add_one_ne_zero hsp
  refine ⟨_, exec_ret_above hne, congrArg (· + 2) hslot, ?_, rfl⟩
  show u.sp - 1 = s.sp
  rw [husp, BitVec.add_sub_cancel]

/-- Settles O23: the sum of a 12-bit and an 8-bit number fits the word, and a `pc` above 0xFFE is a cause. -/
theorem jpV0AddsV0 : Obligations.JpV0AddsV0 := by
  refine ⟨spelledBy_row (.jpV0 0), fun nnn s => ?_⟩
  refine ⟨_, exec_jpV0 nnn s, toNat_jpV0 nnn _, rfl, fun hr hgt => ?_⟩
  have hr' : (s.jump (zextAddr nnn + zextByte (s.reg 0))).Running := hr
  refine step_of_cause hr' (cause_of_pc_gt ?_)
  rw [State.pc_jump, toNat_jpV0]
  exact hgt

/-- Settles O25: the two instructions are `State.skipIf` of one condition and of its negation. -/
theorem registerSkips : Obligations.RegisterSkips := by
  refine ⟨spelledBy_row (.seReg 0 0), spelledBy_row (.sneReg 0 0), ?_, fun x y s => ?_⟩
  · rintro op (hp | hp) hn
    · exact decodeWith_invalid.2 (.inr (.inl ⟨hp, rfl, hn⟩))
    · exact decodeWith_invalid.2 (.inr (.inr (.inr (.inl ⟨hp, rfl, hn⟩))))
  · refine ⟨_, _, exec_seReg x y s, exec_sneReg x y s, fun heq => ?_, fun hne => ?_⟩
    · exact State.pc_skipIf_of_true s (beq_iff_eq.2 heq)
    · exact State.pc_skipIf_of_false s (beq_eq_false_iff_ne.2 hne)

/-- Settles O26: both skips look at the key of VX's low nibble. -/
theorem keySkips : Obligations.KeySkips := by
  refine ⟨spelledBy_row (.skp 0), spelledBy_row (.sknp 0), fun x k s hk => ?_⟩
  refine ⟨_, _, exec_skp x s, exec_sknp x s, ?_⟩
  rw [← State.keyOf_eq hk]
  exact ⟨State.pc_skipIf_of_true s, State.pc_skipIf_of_false s⟩

/-- Settles O29: the byte written is masked by KK, whether it is the free one or the host's. -/
theorem rndMasksAFreeByte : Obligations.RndMasksAFreeByte := by
  refine ⟨spelledBy_row (.rnd 0 0), fun x kk s => ?_, fun x kk rand s hr hf => ?_⟩
  · refine ⟨_, rndWith_eq (Config.rand s.draws) x kk s, ?_, ?_, rfl, rfl⟩
    · rw [State.reg_drawn, and_and_not]
    · rw [State.reg_drawn, BitVec.toNat_and]
      exact Nat.and_le_right
  · rw [cycle_of_rnd hr hf, rndWith_eq]
    exact ⟨_, rfl, s.reg_drawn rand x kk, rfl, (frame_drawn s rand x kk).frame⟩

/-- Settles O36: the sum of two words is the sum of their numbers modulo 65536. -/
theorem addIAddsModulo65536 : Obligations.AddIAddsModulo65536 := by
  refine ⟨spelledBy_row (.addI 0), fun x s => ⟨_, exec_addI x s, ?_, rfl, rfl⟩⟩
  rw [State.i_advance, State.i_setI, BitVec.toNat_add, toNat_zextByte]

/-- Settles O47: each of the three is one write and the advance of `pc`. -/
theorem timerInstructionsMoveBytes : Obligations.TimerInstructionsMoveBytes := by
  refine ⟨spelledBy_row (.ldVxDT 0), spelledBy_row (.ldDTVx 0), spelledBy_row (.ldSTVx 0), fun x s => ?_⟩
  exact ⟨_, _, _, exec_ldVxDT x s, exec_ldDTVx x s, exec_ldSTVx x s, State.reg_advance_setReg_self s x s.dt,
    rfl, rfl, rfl, rfl, rfl, rfl, rfl, rfl⟩

end Sys2Proof
end

section
/-! SUPPORT. The arithmetic and the logic of family 8 (R130 to R140): what a write of VF and then of VX leaves, and the
bytes as numbers. -/
namespace Sys2Proof.Machine

/-! VF written first, VX second (decision D2). -/

/-- The state after the two writes, completed. -/
def State.flagThenReg (s : State) (f : Byte) (x : Nibble) (b : Byte) : State := ((s.setFlag f).setReg x b).advance

section
variable (s : State) (f b : Byte) (x : Nibble)

theorem State.reg_flagThenReg : (s.flagThenReg f x b).reg x = b := State.reg_advance_setReg_self _ x b

theorem State.reg_vf_flagThenReg (h : x ≠ vf) : (s.flagThenReg f x b).reg vf = f :=
  (State.reg_vf_advance_setReg _ h b).trans (State.reg_setReg_self s vf f)

theorem State.reg_vf_setFlag : (s.setFlag f).reg vf = f := State.reg_setReg_self s vf f

theorem State.reg_setFlag_ne (h : x ≠ vf) : (s.setFlag f).reg x = s.reg x := State.reg_setReg_ne s h f

end

/-! The flags. -/

theorem flag_decide (p : Prop) [Decidable p] : flag (decide p) = if p then 1 else 0 := by
  simp [flag]

theorem toNat_flag (p : Prop) [Decidable p] : (if p then 1 else 0 : Byte).toNat = if p then 1 else 0 := by
  split <;> rfl

theorem carryFlag_eq (a b : Byte) : carryFlag a b = if 255 < a.toNat + b.toNat then 1 else 0 := flag_decide _

theorem noBorrowFlagWith_self (e a : Byte) : noBorrowFlagWith e a a = e := if_pos rfl

theorem noBorrowFlag_eq (a b : Byte) : noBorrowFlagWith subEqVf a b = if b.toNat < a.toNat then 1 else 0 := by
  unfold noBorrowFlagWith
  split
  next h => rw [h, if_neg (lt_irrefl _)]; rfl
  next => exact flag_decide _

theorem toNat_shrFlag (a : Byte) : (shrFlag a).toNat = a.toNat % 2 := by
  have h : a.getLsbD 0 = decide (a.toNat % 2 = 1) := Nat.testBit_zero _
  rw [shrFlag, h, flag_decide, toNat_flag]
  split <;> omega

theorem getLsbD_seven (a : Byte) : a.getLsbD 7 = decide (128 ≤ a.toNat) := by
  have ha := byte_lt a
  have h : a.getLsbD 7 = decide (a.toNat / 2 ^ 7 % 2 = 1) := Nat.testBit_eq_decide_div_mod_eq
  rw [h, decide_eq_decide]
  omega

theorem toNat_shlFlag (a : Byte) : (shlFlag a).toNat = a.toNat / 128 := by
  have ha := byte_lt a
  rw [shlFlag, getLsbD_seven, flag_decide, toNat_flag]
  split <;> omega

theorem flag_shr_one (c : Bool) : flag c >>> 1 = 0 := by
  cases c <;> rfl

theorem flag_shl_one (c : Bool) : flag c <<< 1 = if c then 2 else 0 := by
  cases c <;> rfl

/-! The results as numbers. -/

theorem toNat_byte_sub (a b : Byte) : (a - b).toNat = (256 + a.toNat - b.toNat) % 256 := by
  have := byte_lt b
  rw [BitVec.toNat_sub, show 256 + a.toNat - b.toNat = 2 ^ 8 - b.toNat + a.toNat by omega]

theorem toNat_shr_one (a : Byte) : (a >>> 1).toNat = a.toNat / 2 := by
  rw [BitVec.toNat_ushiftRight, Nat.shiftRight_eq_div_pow]

theorem toNat_shl_one (a : Byte) : (a <<< 1).toNat = a.toNat * 2 % 256 := by
  rw [BitVec.toNat_shiftLeft, Nat.shiftLeft_eq]

/-! The arms of `exec`. -/

theorem exec_addReg (x y : Nibble) (s : State) :
    exec (.addReg x y) s =
      .next (s.flagThenReg (carryFlag (s.reg x) (s.reg y)) x (BitVec.ofNat 8 (sumOf (s.reg x) (s.reg y)))) := rfl

theorem exec_shr (x y : Nibble) (s : State) :
    exec (.shr x y) s = .next (s.flagThenReg (shrFlag (s.reg x)) x ((s.setFlag (shrFlag (s.reg x))).reg x >>> 1)) := rfl

theorem exec_shl (x y : Nibble) (s : State) :
    exec (.shl x y) s = .next (s.flagThenReg (shlFlag (s.reg x)) x ((s.setFlag (shlFlag (s.reg x))).reg x <<< 1)) := rfl

/-- The state after a subtraction with the flag `f`: the operands are read after VF is written. -/
def State.subtracted (s : State) (f : Byte) (x a b : Nibble) : State :=
  s.flagThenReg f x ((s.setFlag f).reg a - (s.setFlag f).reg b)

theorem execWith_sub (p : Params) (x y : Nibble) (s : State) : execWith p (.sub x y) s =
    .next (s.subtracted (noBorrowFlagWith p.subEqVf (s.reg x) (s.reg y)) x x y) := rfl

theorem execWith_subn (p : Params) (x y : Nibble) (s : State) : execWith p (.subn x y) s =
    .next (s.subtracted (noBorrowFlagWith p.subEqVf (s.reg y) (s.reg x)) x y x) := rfl

theorem exec_sub (x y : Nibble) (s : State) : exec (.sub x y) s =
    .next (s.subtracted (noBorrowFlagWith subEqVf (s.reg x) (s.reg y)) x x y) := rfl

theorem exec_subn (x y : Nibble) (s : State) : exec (.subn x y) s =
    .next (s.subtracted (noBorrowFlagWith subEqVf (s.reg y) (s.reg x)) x y x) := rfl

/-- SUB_EQ_VF plays no part on unequal operands (conflict C3). -/
theorem execWith_sub_of_ne (p : Params) {x y : Nibble} {s : State} (h : s.reg x ≠ s.reg y) :
    execWith p (.sub x y) s = exec (.sub x y) s := by
  rw [execWith_sub, exec_sub, noBorrowFlagWith_ne h, noBorrowFlagWith_ne h]

theorem execWith_subn_of_ne (p : Params) {x y : Nibble} {s : State} (h : s.reg x ≠ s.reg y) :
    execWith p (.subn x y) s = exec (.subn x y) s := by
  rw [execWith_subn, exec_subn, noBorrowFlagWith_ne h.symm, noBorrowFlagWith_ne h.symm]

/-! The five cases of a subtraction: which of its operands is VF. -/

section
variable (s : State) (f : Byte) {x a b : Nibble}

theorem State.reg_subtracted_plain (ha : a ≠ vf) (hb : b ≠ vf) :
    ((s.subtracted f x a b).reg x).toNat = (256 + (s.reg a).toNat - (s.reg b).toNat) % 256 := by
  rw [State.subtracted, State.reg_flagThenReg, s.reg_setFlag_ne f a ha, s.reg_setFlag_ne f b hb, toNat_byte_sub]

theorem State.reg_subtracted_subtrahend (ha : a ≠ vf) (hb : b = vf) :
    ((s.subtracted f x a b).reg x).toNat = (256 + (s.reg a).toNat - f.toNat) % 256 := by
  rw [State.subtracted, State.reg_flagThenReg, s.reg_setFlag_ne f a ha, hb, s.reg_vf_setFlag f, toNat_byte_sub]

theorem State.reg_subtracted_minuend (ha : a = vf) (hb : b ≠ vf) :
    ((s.subtracted f x a b).reg x).toNat = (256 + f.toNat - (s.reg b).toNat) % 256 := by
  rw [State.subtracted, State.reg_flagThenReg, s.reg_setFlag_ne f b hb, ha, s.reg_vf_setFlag f, toNat_byte_sub]

/-- Equal operands, neither of them VF. -/
theorem State.reg_subtracted_equal (ha : a ≠ vf) (hb : b ≠ vf) (h : s.reg a = s.reg b) :
    (s.subtracted f x a b).reg x = 0 := by
  rw [State.subtracted, State.reg_flagThenReg, s.reg_setFlag_ne f a ha, s.reg_setFlag_ne f b hb, h, BitVec.sub_self]
  rfl

theorem State.reg_subtracted_same : (s.subtracted f x a a).reg x = 0 := by
  rw [State.subtracted, State.reg_flagThenReg, BitVec.sub_self]
  rfl

theorem State.reg_vf_subtracted (h : x ≠ vf) : (s.subtracted f x a b).reg vf = f := s.reg_vf_flagThenReg f _ x h

end

end Sys2Proof.Machine

namespace Sys2Proof
open Machine

/-- Settles O30: a copy and three bitwise operations, each written to VX alone. -/
theorem copyAndLogicWriteNoFlag : Obligations.CopyAndLogicWriteNoFlag := by
  refine ⟨spelledBy_row (.ldReg 0 0), spelledBy_row (.orReg 0 0), spelledBy_row (.andReg 0 0),
    spelledBy_row (.xorReg 0 0), fun x y s => ?_⟩
  refine ⟨_, _, _, _, exec_ldReg x y s, exec_orReg x y s, exec_andReg x y s, exec_xorReg x y s,
    State.reg_advance_setReg_self s x _, fun k _ => ?_, rfl, rfl, rfl, rfl, fun hx => ?_⟩
  · simp only [State.reg_advance_setReg_self, BitVec.getLsbD_or, BitVec.getLsbD_and, BitVec.getLsbD_xor, and_self]
  · simp only [State.reg_vf_advance_setReg s hx, and_self]

/-- Settles O31: the sum of the old registers is written last, the carry first. -/
theorem addRegSetsCarry : Obligations.AddRegSetsCarry := by
  refine ⟨spelledBy_row (.addReg 0 0), fun x y s => ⟨_, exec_addReg x y s, ?_, rfl, fun hx => ?_, rfl⟩⟩
  · rw [State.reg_flagThenReg, BitVec.toNat_ofNat, sumOf]
  · rw [State.reg_vf_flagThenReg _ _ _ _ hx, carryFlag_eq]

/-- Settles O32: the cases of `State.subtracted` with VX as the minuend, with the flag of unequal operands and with
SUB_EQ_VF on equal ones. -/
theorem subSetsNoBorrow : Obligations.SubSetsNoBorrow := by
  refine ⟨spelledBy_row (.sub 0 0), fun x y s => ?any, fun p x y s => ?equal⟩
  case any =>
    refine ⟨_, exec_sub x y s, rfl, fun hx hy => ?_, fun hx hy => ?_, fun hx hy => ?_, fun hx hy => ?_⟩
    · exact ⟨s.reg_subtracted_plain _ hx hy, (s.reg_vf_subtracted _ hx).trans (noBorrowFlag_eq _ _)⟩
    · rw [s.reg_vf_subtracted _ hx, s.reg_subtracted_subtrahend _ hx hy, noBorrowFlag_eq, hy]
      exact ⟨rfl, rfl⟩
    · subst hx
      rw [s.reg_subtracted_minuend _ rfl hy, noBorrowFlag_eq, toNat_flag]
    · subst hx hy
      exact s.reg_subtracted_same _
  case equal =>
    refine ⟨_, execWith_sub p x y s, rfl, fun hne => (execWith_sub_of_ne p hne).symm.trans (execWith_sub p x y s),
      fun heq => ?_⟩
    rw [← heq, noBorrowFlagWith_self]
    refine ⟨fun hx hy => ?_, fun hx hy => ?_, fun hx hy => ?_, fun hx hy => ?_⟩
    · exact ⟨s.reg_vf_subtracted _ hx, s.reg_subtracted_equal _ hx hy heq⟩
    · exact ⟨s.reg_vf_subtracted _ hx, s.reg_subtracted_subtrahend _ hx hy⟩
    · subst hx
      rw [heq]
      exact s.reg_subtracted_minuend _ rfl hy
    · subst hx hy
      exact s.reg_subtracted_same _

/-- Settles O33: the cases of `State.subtracted` with VX as the subtrahend. -/
theorem subnSetsNoBorrow : Obligations.SubnSetsNoBorrow := by
  refine ⟨spelledBy_row (.subn 0 0), fun x y s => ?any, fun p x y s => ?equal⟩
  case any =>
    refine ⟨_, exec_subn x y s, rfl, fun hx hy => ?_, fun hx hy => ?_, fun hx hy => ?_, fun hx hy => ?_⟩
    · exact ⟨s.reg_subtracted_plain _ hy hx, (s.reg_vf_subtracted _ hx).trans (noBorrowFlag_eq _ _)⟩
    · rw [s.reg_vf_subtracted _ hx, s.reg_subtracted_minuend _ hy hx, noBorrowFlag_eq, hy]
      exact ⟨rfl, rfl⟩
    · subst hx
      rw [s.reg_subtracted_subtrahend _ hy rfl, noBorrowFlag_eq, toNat_flag]
    · subst hx hy
      exact s.reg_subtracted_same _
  case equal =>
    refine ⟨_, execWith_subn p x y s, rfl, fun hne => (execWith_subn_of_ne p hne).symm.trans (execWith_subn p x y s),
      fun heq => ?_⟩
    rw [← heq, noBorrowFlagWith_self]
    refine ⟨fun hx hy => ?_, fun hx hy => ?_, fun hx hy => ?_, fun hx hy => ?_⟩
    · exact ⟨s.reg_vf_subtracted _ hx, s.reg_subtracted_equal _ hy hx heq.symm⟩
    · exact ⟨s.reg_vf_subtracted _ hx, s.reg_subtracted_minuend _ hy hx⟩
    · subst hx
      rw [heq]
      exact s.reg_subtracted_subtrahend _ hy rfl
    · subst hx hy
      exact s.reg_subtracted_same _

/-- Settles O34: with X other than F the shift is of the old VX, with X = F of the flag just written; Y is not read. -/
theorem shiftsMoveOneBit : Obligations.ShiftsMoveOneBit := by
  refine ⟨spelledBy_row (.shr 0 0), spelledBy_row (.shl 0 0), fun x y y' s => ?_⟩
  refine ⟨_, _, exec_shr x y s, exec_shl x y s, exec_shr x y' s, exec_shl x y' s, rfl, rfl, fun hx => ?_, fun hx => ?_⟩
  · rw [State.reg_flagThenReg, State.reg_flagThenReg, State.reg_vf_flagThenReg _ _ _ _ hx,
      State.reg_vf_flagThenReg _ _ _ _ hx, s.reg_setFlag_ne _ x hx, s.reg_setFlag_ne _ x hx]
    exact ⟨toNat_shr_one _, toNat_shrFlag _, toNat_shl_one _, toNat_shlFlag _⟩
  · subst hx
    rw [State.reg_flagThenReg, State.reg_flagThenReg, State.reg_vf_setFlag, State.reg_vf_setFlag]
    refine ⟨flag_shr_one _, ?_⟩
    rw [shlFlag, getLsbD_seven, flag_shl_one]
    simp only [decide_eq_true_eq]

end Sys2Proof
end

section
/-! SUPPORT. The memory transfers FX33, FX55 and FX65 (R153 to R155): the bytes they move, that only `I` modulo 4096
matters (R55), and that a later fetch sees what was stored (R64). -/
namespace Sys2Proof.Machine

/-! A store read back. -/

theorem State.memRead_storeUpTo_le (s : State) {x r : Nibble} (h : r ≤ x) :
    (s.storeUpTo (x.toNat + 1)).memRead (s.ea r.toNat) = s.reg r := by
  have hx := nibble_lt x
  have hr := BitVec.le_def.1 h
  rw [State.memRead_storeUpTo_ea s (by omega) (by omega), BitVec.ofNat_toNat, BitVec.setWidth_eq]

/-- The register indices up to X are the numbers up to X's. -/
theorem forall_le_iff {x : Nibble} {p : Nat → Prop} : (∀ r : Nibble, r ≤ x → p r.toNat) ↔ ∀ k < x.toNat + 1, p k := by
  have hx := nibble_lt x
  constructor
  · intro h k hk
    have hk' : (BitVec.ofNat 4 k).toNat = k := by
      rw [BitVec.toNat_ofNat]
      omega
    have := h (BitVec.ofNat 4 k) (BitVec.le_def.2 (by omega))
    rwa [hk'] at this
  · intro h r hr
    have := BitVec.le_def.1 hr
    exact h r.toNat (by omega)

theorem State.memRead_loadUpTo (s : State) (n : Nat) (a : Addr) : (s.loadUpTo n).memRead a = s.memRead a := by
  rw [State.loadUpTo_eq]
  rfl

/-! Only `I` modulo 4096 matters. -/

theorem State.ea_of_mod_eq {s t : State} (h : t.i.toNat % 4096 = s.i.toNat % 4096) (k : Nat) : t.ea k = s.ea k := by
  apply BitVec.eq_of_toNat_eq
  rw [State.toNat_ea, State.toNat_ea, Nat.add_mod, h, ← Nat.add_mod]

section
variable {s : State} {w : Word} (h : ∀ k, ({ s with i := w } : State).ea k = s.ea k)
include h

theorem State.storeDigits_withI (b : Byte) :
    ({ s with i := w } : State).storeDigits b = { s.storeDigits b with i := w } := by
  rw [State.storeDigits, h 0, h 1, h 2]
  rfl

theorem State.storeUpTo_withI (n : Nat) :
    ({ s with i := w } : State).storeUpTo n = { s.storeUpTo n with i := w } := by
  induction n with
  | zero => rfl
  | succ n ih =>
    rw [State.storeUpTo, ih, h n]
    rfl

theorem State.loadUpTo_withI (n : Nat) :
    ({ s with i := w } : State).loadUpTo n = { s.loadUpTo n with i := w } := by
  induction n with
  | zero => rfl
  | succ n ih =>
    rw [State.loadUpTo, ih, h n]
    rfl

theorem State.spriteRows_withI (n : Nibble) : ({ s with i := w } : State).spriteRows n = s.spriteRows n := by
  unfold State.spriteRows
  exact List.map_congr_left fun r _ => by rw [h r]; rfl

end

/-- Each data transfer does the same for another `I` with the same addresses. -/
theorem exec_transfer_withI {s t : State} {w : Word} (h : ∀ k, ({ s with i := w } : State).ea k = s.ea k)
    {x y n : Nibble} {i : Instr} (hi : i ∈ [Instr.ldB x, .storeRegs x, .loadRegs x, .drw x y n])
    (hx : exec i s = .next t) : exec i { s with i := w } = .next { t with i := w } := by
  simp only [List.mem_cons, List.not_mem_nil, or_false] at hi
  obtain rfl | rfl | rfl | rfl := hi
  · obtain rfl := next_unique (exec_ldB x s) hx
    rw [exec_ldB, State.storeDigits_withI h]
    rfl
  · obtain rfl := next_unique (exec_storeRegs x s) hx
    rw [exec_storeRegs, State.storeUpTo_withI h]
    rfl
  · obtain rfl := next_unique (exec_loadRegs x s) hx
    rw [exec_loadRegs, State.loadUpTo_withI h]
    rfl
  · obtain rfl := next_unique (exec_drw x y n s) hx
    rw [exec_drw, State.spriteRows_withI h]
    rfl

/-! One byte of memory after a store, by the number of its address. -/

theorem addr_of_toNat {a : Addr} {n : Nat} (h : a.toNat = n) : BitVec.ofNat 12 n = a := by
  rw [← h, BitVec.ofNat_toNat, BitVec.setWidth_eq]

theorem ne_addr_of_toNat {a : Addr} {n : Nat} (hn : n < 4096) (h : a.toNat ≠ n) : BitVec.ofNat 12 n ≠ a := by
  rintro rfl
  rw [BitVec.toNat_ofNat] at h
  omega

theorem byte_after_storeRegs {x : Nibble} {s t : State} (h : exec (.storeRegs x) s = .next t) {n : Nat}
    (hn : n < 4096) :
    (∀ r : Nibble, r ≤ x → (s.ea r.toNat).toNat = n → t.memRead (BitVec.ofNat 12 n) = s.reg r) ∧
    ((∀ r : Nibble, r ≤ x → (s.ea r.toNat).toNat ≠ n) →
      t.memRead (BitVec.ofNat 12 n) = s.memRead (BitVec.ofNat 12 n)) := by
  constructor
  · intro r hr ha
    obtain rfl := next_unique (exec_storeRegs x s) h
    rw [addr_of_toNat ha, State.memRead_advance, State.memRead_storeUpTo_le s hr]
  · intro hno
    exact memRead_exec_storeRegs h (forall_le_iff.1 fun r hr => ne_addr_of_toNat hn (hno r hr))

/-- The digit of `10 ^ (2 - k)` stands at `EA(k)`. -/
theorem State.toNat_memRead_storeDigits (s : State) (b : Byte) {k : Nat} (hk : k < 3) :
    ((s.storeDigits b).memRead (s.ea k)).toNat = b.toNat / 10 ^ (2 - k) % 10 := by
  have hb := byte_lt b
  interval_cases k
  · rw [State.memRead_storeDigits_zero, toNat_hundreds]
    omega
  · rw [State.memRead_storeDigits_one, toNat_tens]
    rfl
  · rw [State.memRead_storeDigits_two, toNat_ones]
    omega

theorem byte_after_ldB {x : Nibble} {s t : State} (h : exec (.ldB x) s = .next t) {n : Nat} (hn : n < 4096) :
    (∀ k < 3, (s.ea k).toNat = n → (t.memRead (BitVec.ofNat 12 n)).toNat = (s.reg x).toNat / 10 ^ (2 - k) % 10) ∧
    ((∀ k < 3, (s.ea k).toNat ≠ n) → t.memRead (BitVec.ofNat 12 n) = s.memRead (BitVec.ofNat 12 n)) := by
  constructor
  · intro k hk ha
    obtain rfl := next_unique (exec_ldB x s) h
    rw [addr_of_toNat ha, State.memRead_advance, State.toNat_memRead_storeDigits s _ hk]
  · intro hno
    exact memRead_exec_ldB h fun k hk => ne_addr_of_toNat hn (hno k hk)

/-- A fetch reads the memory that another state left (R64). -/
theorem fetch_of_mem_eq {t u : State} (hm : u.mem = t.mem) (hpc : u.pc.toNat ≤ 0xFFE) :
    u.fetch = .ok (wordOfBytes (t.memRead (BitVec.ofNat 12 u.pc.toNat))
      (t.memRead (BitVec.ofNat 12 (u.pc.toNat + 1)))) := by
  rw [← State.memRead_congr hm, ← State.memRead_congr hm]
  exact State.fetch_ok.2 ⟨hpc, rfl⟩

end Sys2Proof.Machine

namespace Sys2Proof
open Machine

/-- Settles O38: the transfer `State.storeUpTo` read back inside and outside its addresses. -/
theorem storeRegsStoresV0ToVX : Obligations.StoreRegsStoresV0ToVX := by
  refine ⟨spelledBy_row (.storeRegs 0), fun x s => ?_⟩
  have hx := exec_storeRegs x s
  have hf := exec_frame hx
  refine ⟨_, hx, ?_, fun r hr => ?_, fun a ha => ?_, hf.frame.2 .i (by simp [partsOf]),
    fun r => hf.reg (by simp [destsOf])⟩
  · rw [State.storeUpTo_eq]
    rfl
  · exact State.memRead_storeUpTo_le s hr
  · exact memRead_exec_storeRegs hx (forall_le_iff.1 ha)

/-- Settles O39: the transfer `State.loadUpTo` for the registers up to VX and above it. -/
theorem loadRegsLoadsV0ToVX : Obligations.LoadRegsLoadsV0ToVX := by
  refine ⟨spelledBy_row (.loadRegs 0), fun x s => ?_⟩
  have hx := exec_loadRegs x s
  have hf := exec_frame hx
  refine ⟨_, hx, ?_, fun r hr => ?_, fun r hr => ?_, hf.frame.2 .i (by simp [partsOf]), fun a => ?_⟩
  · rw [State.loadUpTo_eq]
    rfl
  · exact State.reg_loadUpTo_le s hr
  · exact State.reg_loadUpTo_gt s (by simpa using hr)
  · exact State.memRead_loadUpTo s _ a

/-- Settles O40: the load reads at the addresses of the store, which depend on `I` alone. -/
theorem storeThenLoadIsIdentity : Obligations.StoreThenLoadIsIdentity := by
  intro x s t u h hmem hi
  obtain rfl := next_unique (exec_storeRegs x s) h
  have hi' : u.i = s.i := hi.trans ((exec_frame h).frame.2 .i (by simp [partsOf]))
  refine ⟨_, exec_loadRegs x u, fun r hr => ?_⟩
  rw [State.reg_advance, State.reg_loadUpTo_le u hr, State.ea_congr hi', State.memRead_congr hmem,
    State.memRead_advance, State.memRead_storeUpTo_le s hr]

/-- Settles O41: the address as a number, and the transfers as functions of the addresses. -/
theorem dataAddressesWrap : Obligations.DataAddressesWrap := by
  refine ⟨fun s k => ⟨s.toNat_ea k, ?_⟩, fun x y n s w hw i hi => ?_, fun s hpc => ?_⟩
  · rw [s.toNat_ea k, Nat.mod_mod_of_dvd _ (by decide)]
  · obtain ⟨t, ht⟩ := exec_total i s
    have hparts : Part.i ∉ partsOf i ∧ Part.err ∉ partsOf i := by
      revert i
      simp [partsOf]
    have hf := (exec_frame ht).frame
    exact ⟨t, ht, hf.2 .i hparts.1, hf.2 .err hparts.2, exec_transfer_withI (State.ea_of_mod_eq hw) hi ht⟩
  · exact State.fetch_error.2 ⟨by omega, rfl⟩

/-- Settles O42: each of the two fetched bytes is a byte of the memory that the store left. -/
theorem fetchSeesStores : Obligations.FetchSeesStores := by
  intro x s t u hmem hpc
  refine ⟨fun h => ?_, fun h => ?_⟩
  · obtain ⟨hi, hi'⟩ := byte_after_storeRegs h (n := u.pc.toNat) (by omega)
    obtain ⟨lo, lo'⟩ := byte_after_storeRegs h (n := u.pc.toNat + 1) (by omega)
    exact ⟨_, _, fetch_of_mem_eq hmem hpc, hi, lo, hi', lo'⟩
  · obtain ⟨hi, hi'⟩ := byte_after_ldB h (n := u.pc.toNat) (by omega)
    obtain ⟨lo, lo'⟩ := byte_after_ldB h (n := u.pc.toNat + 1) (by omega)
    exact ⟨_, _, fetch_of_mem_eq hmem hpc, hi, lo, hi', lo'⟩

end Sys2Proof
end

section
/-! SUPPORT. DXYN and the Framebuffer component (R162 to R167): the sprite's rows, and drawing the same sprite twice. -/
namespace Sys2Proof.Machine

theorem State.length_spriteRows (s : State) (n : Nibble) : (s.spriteRows n).length = n.toNat := by
  rw [State.spriteRows, List.length_map, List.length_range]

theorem State.getD_spriteRows (s : State) {n : Nibble} {k : Nat} (hk : k < n.toNat) :
    (s.spriteRows n).getD k 0 = s.memRead (s.ea k) := by
  rw [List.getD_eq_getElem _ _ (by rwa [State.length_spriteRows])]
  simp [State.spriteRows]

theorem flag_eq_one {c : Bool} : flag c = 1 ↔ c = true := by
  cases c <;> decide

theorem flag_zero_or_one (c : Bool) : flag c = 0 ∨ flag c = 1 := by
  cases c
  · exact .inl rfl
  · exact .inr rfl

/-! Two equal calls. -/

section
variable (fb : Framebuffer) (x y : Nat) {rows : List Byte} (hlen : rows.length ≤ 32)
include hlen

/-- A pixel that the sprite hits takes the XOR with its bit twice, every other pixel stays twice. -/
theorem getPixel_drawSprite_twice (px py : Nat) :
    getPixel (drawSprite (drawSprite fb x y rows).1 x y rows).1 px py = getPixel fb px py := by
  by_cases h : ∃ dx dy, Hits x y rows.length px py dx dy
  · obtain ⟨dx, dy, hh⟩ := h
    rw [getPixel_drawSprite_hit _ x y hlen hh, getPixel_drawSprite_hit fb x y hlen hh, Bool.xor_assoc, Bool.xor_self,
      Bool.xor_false]
  · simp only [not_exists] at h
    rw [getPixel_drawSprite_miss _ x y hlen h, getPixel_drawSprite_miss fb x y hlen h]

/-- Under a 1 bit the second call finds the complement of what the first one found. -/
theorem collides_drawSprite_again :
    (drawSprite (drawSprite fb x y rows).1 x y rows).2 = true ↔
      ∃ dx < 8, ∃ dy < rows.length, getPixel fb (x + dx) (y + dy) = false ∧ spriteBit (rows.getD dy 0) dx = true := by
  rw [drawSprite_collides]
  have key : ∀ dx < 8, ∀ dy < rows.length, spriteBit (rows.getD dy 0) dx = true →
      getPixel (drawSprite fb x y rows).1 (x + dx) (y + dy) = !getPixel fb (x + dx) (y + dy) := by
    intro dx hdx dy hdy hbit
    rw [getPixel_drawSprite_hit fb x y hlen ⟨hdx, hdy, rfl, rfl⟩, hbit, Bool.xor_true]
  constructor
  · rintro ⟨dx, hdx, dy, hdy, hp, hbit⟩
    rw [key dx hdx dy hdy hbit, Bool.not_eq_true'] at hp
    exact ⟨dx, hdx, dy, hdy, hp, hbit⟩
  · rintro ⟨dx, hdx, dy, hdy, hp, hbit⟩
    refine ⟨dx, hdx, dy, hdy, ?_, hbit⟩
    rw [key dx hdx dy hdy hbit, hp]
    rfl

end

end Sys2Proof.Machine

namespace Sys2Proof
open Machine

/-- Settles O45: two equal XORs cancel on every pixel, and a grid is its pixels. -/
theorem drawSpriteIsAnInvolution : Obligations.DrawSpriteIsAnInvolution := by
  intro fb x y rows hlen
  exact ⟨fb_ext fun px _ py _ => getPixel_drawSprite_twice fb x y (by omega) px py,
    collides_drawSprite_again fb x y (by omega)⟩

/-- Settles O44: the laws of drawSprite at the rows that DXYN reads; VF is the flag of the collision. -/
theorem drwXorsTheSprite : Obligations.DrwXorsTheSprite := by
  refine ⟨spelledBy_row (.drw 0 0 0), fun x y n s => ⟨_, exec_drw x y n s, ?hit, ?miss, ?flag, ?bit, rfl, rfl⟩⟩
  all_goals
    have hn := nibble_lt n
    have hlen := s.length_spriteRows n
  case hit =>
    intro dx hdx dy hdy
    rw [← s.getD_spriteRows hdy]
    exact getPixel_drawSprite_hit s.fb _ _ (by omega) ⟨hdx, by omega, rfl, rfl⟩
  case miss =>
    intro px py hno
    refine getPixel_drawSprite_miss s.fb _ _ (by omega) ?_
    rintro dx dy ⟨hdx, hdy, hpx, hpy⟩
    exact hno dx hdx dy (by omega) ⟨hpx, hpy⟩
  case flag =>
    rw [State.reg_advance, State.reg_vf_setFlag, flag_eq_one, drawSprite_collides, hlen]
    refine exists_congr fun dx => and_congr_right fun _ => exists_congr fun dy => and_congr_right fun hdy => ?_
    rw [s.getD_spriteRows hdy]
    rfl
  case bit =>
    rw [State.reg_advance, State.reg_vf_setFlag]
    exact flag_zero_or_one _

end Sys2Proof
end

section
/-! SUPPORT. FX0A and the key wait with any selection (R185, KEYSEL of R6), and who writes VF (R21). -/
namespace Sys2Proof.Machine

theorem toNat_zextNibble (k : Nibble) : (zextNibble k).toNat = k.toNat := BitVec.toNat_setWidth_of_le (by decide)

/-! The two ways of FX0A and of a waiting cycle, by what the selection answers. -/

section
variable {sel : Vector Bool 16 → Nibble} {s : State} {k : Nibble}

theorem execLdVxKWith_none (x : Nibble) (h : keySelWith sel s.key = none) :
    execLdVxKWith sel x s = .next { s with wait := true, waitX := x } := by
  rw [execLdVxKWith, h]

theorem execLdVxKWith_some (x : Nibble) (h : keySelWith sel s.key = some k) :
    execLdVxKWith sel x s = .next (s.setReg x (zextNibble k)).advance := by
  rw [execLdVxKWith, h]

theorem pollKeyWith_none (h : keySelWith sel s.key = none) : pollKeyWith sel s = .next s := by
  rw [pollKeyWith, h]

theorem pollKeyWith_some (h : keySelWith sel s.key = some k) : pollKeyWith sel s = .next (s.waitEnded k) := by
  rw [pollKeyWith, h]
  rfl

end

/-- The number of the key FX0A wrote. -/
theorem toNat_reg_setKeyIndex (s : State) (x k : Nibble) :
    ((s.setReg x (zextNibble k)).advance.reg x).toNat = k.toNat := by
  rw [State.reg_advance_setReg_self, toNat_zextNibble]

theorem toNat_reg_waitEnded (s : State) (k : Nibble) : ((s.waitEnded k).reg s.waitX).toNat = k.toNat :=
  toNat_reg_setKeyIndex s s.waitX k

/-- A lawful selection answers a pressed key when there is one. -/
theorem lawful_keySel {p : Params} (hp : p.Lawful) {key : Vector Bool 16} {k : Nibble}
    (hk : key[k.toNat]'(nibble_lt k) = true) :
    keySelWith p.keySel key = some (p.keySel key) ∧ key[(p.keySel key).toNat]'(nibble_lt _) = true := by
  have hany : anyKey key = true := anyKey_iff.2 ⟨k, hk⟩
  exact ⟨keySelWith_some.2 ⟨hany, rfl⟩, hp.keySel_pressed key hany⟩

theorem stepWith_of_waiting (p : Params) {s : State} (h : s.Waiting) : stepWith p s = pollKeyWith p.keySel s :=
  cycleOf_of_waiting h

/-! The flag values. -/

theorem noBorrowFlag_zero_or_one (a b : Byte) :
    noBorrowFlagWith subEqVf a b = 0 ∨ noBorrowFlagWith subEqVf a b = 1 := by
  rw [noBorrowFlag_eq]
  split
  · exact .inr rfl
  · exact .inl rfl

/-- The six flag writers (R21). -/
def FlagWriter (j : Instr) (x y n : Nibble) : Prop :=
  j = .addReg x y ∨ j = .sub x y ∨ j = .shr x y ∨ j = .subn x y ∨ j = .shl x y ∨ j = .drw x y n

/-- A flag writer leaves 0 or 1 in VF, unless its result goes there. -/
theorem flag_of_exec {j : Instr} {x y n : Nibble} (hj : FlagWriter j x y n) {s t : State} (h : exec j s = .next t)
    (hx : x ≠ vf ∨ j = .drw x y n) : t.reg vf = 0 ∨ t.reg vf = 1 := by
  obtain rfl | rfl | rfl | rfl | rfl | rfl := hj
  case inr.inr.inr.inr.inr =>
    obtain rfl := next_unique (exec_drw x y n s) h
    rw [State.reg_advance, State.reg_vf_setFlag]
    exact flag_zero_or_one _
  all_goals replace hx : x ≠ vf := hx.resolve_right nofun
  · obtain rfl := next_unique (exec_addReg x y s) h
    rw [State.reg_vf_flagThenReg _ _ _ _ hx]
    exact flag_zero_or_one _
  · obtain rfl := next_unique (exec_sub x y s) h
    rw [State.reg_vf_subtracted _ _ hx]
    exact noBorrowFlag_zero_or_one _ _
  · obtain rfl := next_unique (exec_shr x y s) h
    rw [State.reg_vf_flagThenReg _ _ _ _ hx]
    exact flag_zero_or_one _
  · obtain rfl := next_unique (exec_subn x y s) h
    rw [State.reg_vf_subtracted _ _ hx]
    exact noBorrowFlag_zero_or_one _ _
  · obtain rfl := next_unique (exec_shl x y s) h
    rw [State.reg_vf_flagThenReg _ _ _ _ hx]
    exact flag_zero_or_one _

/-- VF is the highest register: FX65 reaches it with X = F alone. -/
theorem eq_vf_of_le {x : Nibble} (h : vf ≤ x) : x = vf := by
  revert x
  decide

/-- The instructions that may write VF: the flag writers, and those that name it as their destination. -/
theorem vf_mem_destsOf {j : Instr} (h : vf ∈ destsOf j) :
    (∃ x y n, FlagWriter j x y n) ∨
    (∃ kk y, j = .ldImm vf kk ∨ j = .addImm vf kk ∨ j = .rnd vf kk ∨ j = .ldReg vf y ∨ j = .orReg vf y ∨
      j = .andReg vf y ∨ j = .xorReg vf y) ∨
    j = .ldVxDT vf ∨ j = .ldVxK vf ∨ j = .loadRegs vf := by
  cases j
  case loadRegs x =>
    rw [eq_vf_of_le (mem_destsOf_loadRegs.1 h)]
    simp
  case addReg x y | sub x y | shr x y | subn x y | shl x y => exact .inl ⟨x, y, 0, by simp [FlagWriter]⟩
  case drw x y n => exact .inl ⟨x, y, n, by simp [FlagWriter]⟩
  case ldImm | addImm | ldReg | orReg | andReg | xorReg | rnd | ldVxDT | ldVxK =>
    obtain rfl := List.mem_singleton.1 h
    simp
  all_goals exact absurd h List.not_mem_nil

end Sys2Proof.Machine

namespace Sys2Proof
open Machine

/-- Settles O46: the two ways of FX0A at the spec's selection and at any lawful one. -/
theorem ldVxKTakesTheLowestKeyOrWaits : Obligations.LdVxKTakesTheLowestKeyOrWaits := by
  refine ⟨spelledBy_row (.ldVxK 0), fun x s => ⟨fun hno => ?_, fun k hk hlow => ?_, fun p k hp hk => ?_⟩⟩
  · exact ⟨execLdVxKWith_none x (keySelWith_none.2 hno), fun p => execLdVxKWith_none x (keySelWith_none.2 hno)⟩
  · have hsel : keySelWith lowestKey s.key = some k := keySel_some.2 ⟨hk, hlow⟩
    exact ⟨_, execLdVxKWith_some x hsel, toNat_reg_setKeyIndex s x k, rfl, rfl⟩
  · obtain ⟨hsel, hpressed⟩ := lawful_keySel hp hk
    exact ⟨_, _, execLdVxKWith_some x hsel, rfl, hpressed, toNat_reg_setKeyIndex s x _, rfl, rfl⟩

/-- Settles O17: the two ways of a waiting cycle at the spec's selection and at any lawful one. -/
theorem waitingCyclePollsTheKeys : Obligations.WaitingCyclePollsTheKeys := by
  intro s he hw
  have hwait : s.Waiting := ⟨he, hw⟩
  refine ⟨fun hno => ?_, fun k hk hlow => ?_, fun p k hp hk => ?_⟩
  · refine ⟨(step_of_waiting hwait).trans (pollKeyWith_none (keySelWith_none.2 hno)), fun p => ?_⟩
    exact (stepWith_of_waiting p hwait).trans (pollKeyWith_none (keySelWith_none.2 hno))
  · have hsel : keySelWith lowestKey s.key = some k := keySel_some.2 ⟨hk, hlow⟩
    exact ⟨_, (step_of_waiting hwait).trans (pollKeyWith_some hsel), toNat_reg_waitEnded s k, rfl, rfl,
      (frame_waitEnded s k).frame⟩
  · obtain ⟨hsel, hpressed⟩ := lawful_keySel hp hk
    exact ⟨_, _, (stepWith_of_waiting p hwait).trans (pollKeyWith_some hsel), rfl, hpressed,
      toNat_reg_waitEnded s _, rfl, rfl, (frame_waitEnded s _).frame⟩

/-- Settles O55: a changed VF is among the registers that the instruction that ran may write, and `vf_mem_destsOf` lists
those instructions. -/
theorem flagIsWrittenByFlagWritersOnly : Obligations.FlagIsWrittenByFlagWritersOnly := by
  intro s t hr h hne
  obtain ⟨j, hj, hx, hm⟩ | ⟨hw, -⟩ := reg_changed h hne
  · rw [hj]
    simp only [Option.some.injEq]
    refine (vf_mem_destsOf hm).imp_left ?_
    rintro ⟨x, y, n, hfw⟩
    exact ⟨x, y, n, hfw, flag_of_exec hfw hx⟩
  · exact absurd (hr.2.symm.trans hw.2) Bool.false_ne_true

end Sys2Proof
end

section
/-! SUPPORT. The host's operations and the open parameters (R6, R33, R36, R201, R220 to R225, R243, R245): reset, ticks,
keys, reports, loads, and what each input can change. -/
namespace Sys2Proof.Machine

/-! The reset state (R36). -/

theorem State.memRead_reset (a : Addr) : State.reset.memRead a = font.getD a.toNat 0 := rfl

theorem length_font : font.length = 80 := rfl

theorem State.memRead_reset_above {a : Addr} (h : 80 ≤ a.toNat) : State.reset.memRead a = 0 := by
  rw [State.memRead_reset]
  exact List.getD_eq_default _ _ (by rwa [length_font])

/-! Ticks and keys (R222, R223). -/

theorem toNat_tick (t : Byte) : (tick t).toNat = t.toNat - 1 := by
  unfold tick
  split
  next h => rw [h]; rfl
  next h =>
    have hb := byte_lt t
    have h0 : t.toNat ≠ 0 := fun h0 => h (BitVec.eq_of_toNat_eq h0)
    have h1 : (1 : Byte).toNat = 1 := rfl
    rw [BitVec.toNat_sub, h1]
    omega

theorem frame_tickTimers (s : State) : StrictFrame [] [.dt, .st] s (tickTimers s) :=
  (frame_dt s (tick s.dt)).trans (frame_st { s with dt := tick s.dt } (tick s.st))

theorem key_setKey (k j : Nibble) (b : Bool) (s : State) :
    (setKey k b s).key[j.toNat]'(nibble_lt j) = if j = k then b else s.key[j.toNat]'(nibble_lt j) := by
  simp only [setKey, Vector.getElem_set, BitVec.toNat_inj, eq_comm]

/-! Bytes written by the loader (R243). -/

theorem frame_writeBytes (s : State) (a : Nat) (bytes : List Byte) :
    StrictFrame [] [.mem] s (writeBytes s a bytes) := by
  rw [writeBytes_eq]
  exact frame_mem s _

/-- The loader does not look at the keys. -/
theorem writeBytes_withKey (bytes : List Byte) (s : State) (a : Nat) (key : Vector Bool 16) :
    writeBytes { s with key := key } a bytes = { writeBytes s a bytes with key := key } := by
  induction bytes generalizing s a with
  | nil => rfl
  | cons b bs ih => exact ih (s.memWrite _ b) (a + 1)

/-! A stopped machine, whatever the open parameters (R204). -/

theorem cycleWith_of_stopped (p : Params) (rand : Byte) {s : State} (h : s.Stopped) : cycleWith p rand s = .next s := by
  obtain ⟨x, kk, hn, -⟩ | ⟨-, hc⟩ := cycleWith_cases p rand s
  · exact absurd (State.nextInstrWith_eq_some.1 hn).1.1 h
  · rw [hc]
    exact cycleOf_of_stopped h

/-- No transaction but reset touches the latch of a stopped machine. -/
theorem err_of_transactWith {p : Params} {x : Transaction} {z z' : Session} {a : Answer} (hs : z.state.Stopped)
    (hx : x ≠ .reset) (h : transactWith p x z = .next (z', a)) : z'.state.err = z.state.err := by
  cases x with
  | reset => exact absurd rfl hx
  | loadProgram bytes =>
    obtain hl | ⟨b, hl⟩ | ⟨-, hl⟩ := transactWith_load_cases p z bytes
    · rw [hl] at h
      cases h
    · rw [hl] at h
      cases h
      rfl
    · rw [hl] at h
      cases h
      exact (frame_writeBytes z.state _ bytes).frame.2 .err (by simp)
  | cycle rand =>
    rw [transactWith, cycleWith_of_stopped p rand hs] at h
    cases h
    rfl
  | tickTimers => cases h; rfl
  | setKey k b =>
    rw [transactWith] at h
    split at h <;> cases h
    rfl
  | consumeRedraw => cases h; rfl

/-! Reports (R201). -/

theorem cycleAnswer_none {t : State} (h : t.err = none) (code : FatalError → Nat) : cycleAnswer code t = .done := by
  rw [cycleAnswer, State.reportWith, h]
  rfl

theorem cycleAnswer_some {t : State} {e : FatalError} (h : t.err = some e) (code : FatalError → Nat) :
    cycleAnswer code t =
      .error ⟨e, code e, t.pc, if e = .invalidOpcode then t.fetch.toOption else none⟩ := by
  rw [cycleAnswer, State.reportWith, h]
  rfl

theorem State.errCode_some {t : State} {e : FatalError} (h : t.err = some e) : t.errCode = e.code := by
  rw [State.errCode, h]
  rfl

/-- A cycle that ends with an error has changed nothing but the latch. -/
theorem eq_of_cycle_error {rand : Byte} {s t : State} (h : cycle rand s = .next t) {e : FatalError}
    (he : t.err = some e) : t = { s with err := some e } := by
  obtain ⟨x, kk, hn, hc⟩ | ⟨-, hc⟩ := cycle_cases rand s
  · have herr := (completed_rndWith (hc.symm.trans h)).err
    rw [he, (State.nextInstr_eq_some.1 hn).1.1] at herr
    cases herr
  · exact eq_of_step_error (hc.symm.trans h) he

/-! The keys and the count of draws, which most instructions neither read nor write. -/

/-- The state with other keys and another count of draws. -/
def State.withInputs (s : State) (key : Vector Bool 16) (n : Nat) : State := { s with key := key, draws := n }

theorem State.withInputs_of_draws (s : State) {key : Vector Bool 16} {n : Nat} (h : n = s.draws) :
    s.withInputs key n = { s with key := key } := by
  subst h
  rfl

theorem State.withInputs_of_key (s : State) {key : Vector Bool 16} {n : Nat} (h : key = s.key) :
    s.withInputs key n = { s with draws := n } := by
  subst h
  rfl

section
variable (key : Vector Bool 16) (n : Nat)

theorem State.storeUpTo_withInputs (s : State) (k : Nat) :
    (s.withInputs key n).storeUpTo k = (s.storeUpTo k).withInputs key n := by
  induction k with
  | zero => rfl
  | succ k ih =>
    rw [State.storeUpTo, ih]
    rfl

theorem State.loadUpTo_withInputs (s : State) (k : Nat) :
    (s.withInputs key n).loadUpTo k = (s.loadUpTo k).withInputs key n := by
  induction k with
  | zero => rfl
  | succ k ih =>
    rw [State.loadUpTo, ih]
    rfl

/-- An instruction that is none of EX9E, EXA1, FX0A and CXKK does the same with other inputs. -/
theorem exec_withInputs {i : Instr} (hk : ∀ x, i ≠ .skp x ∧ i ≠ .sknp x ∧ i ≠ .ldVxK x) (hr : ∀ x kk, i ≠ .rnd x kk)
    {s t : State} (h : exec i s = .next t) : exec i (s.withInputs key n) = .next (t.withInputs key n) := by
  cases i
  case skp x => exact absurd rfl (hk x).1
  case sknp x => exact absurd rfl (hk x).2.1
  case ldVxK x => exact absurd rfl (hk x).2.2
  case rnd x kk => exact absurd rfl (hr x kk)
  case call nnn =>
    by_cases hsp : s.sp = 15
    · obtain rfl := next_unique (exec_call_full hsp nnn) h
      exact exec_call_full (s := s.withInputs key n) hsp nnn
    · obtain rfl := next_unique (exec_call_below hsp nnn) h
      exact exec_call_below (s := s.withInputs key n) hsp nnn
  case ret =>
    by_cases hsp : s.sp = 0
    · obtain rfl := next_unique (exec_ret_empty hsp) h
      exact exec_ret_empty (s := s.withInputs key n) hsp
    · obtain rfl := next_unique (exec_ret_above hsp) h
      exact exec_ret_above (s := s.withInputs key n) hsp
  case storeRegs x =>
    obtain rfl := next_unique (exec_storeRegs x s) h
    rw [exec_storeRegs, State.storeUpTo_withInputs]
    rfl
  case loadRegs x =>
    obtain rfl := next_unique (exec_loadRegs x s) h
    rw [exec_loadRegs, State.loadUpTo_withInputs]
    rfl
  all_goals
    obtain rfl := Host.Outcome.next.inj h
    rfl

end

/-- With other keys every instruction but EX9E, EXA1 and FX0A does the same. -/
theorem exec_withKeys {i : Instr} (hk : ∀ x, i ≠ .skp x ∧ i ≠ .sknp x ∧ i ≠ .ldVxK x) (key : Vector Bool 16)
    {s t : State} (h : exec i s = .next t) : exec i { s with key := key } = .next { t with key := key } := by
  by_cases hr : ∃ x kk, i = .rnd x kk
  · obtain ⟨x, kk, rfl⟩ := hr
    obtain rfl := Host.Outcome.next.inj h
    rfl
  · have hr' : ∀ x kk, i ≠ .rnd x kk := fun x kk he => hr ⟨x, kk, he⟩
    have hd : t.draws = s.draws := by
      refine (exec_frame h).frame.2 .draws fun hm => ?_
      exact hr (draws_mem_partsOf hm)
    have hx := exec_withInputs key s.draws hk hr' h
    rwa [s.withInputs_of_draws rfl, t.withInputs_of_draws hd.symm] at hx

/-- With another count of draws every instruction but CXKK does the same. -/
theorem exec_withDraws {i : Instr} (hr : ∀ x kk, i ≠ .rnd x kk) (n : Nat) {s t : State} (h : exec i s = .next t) :
    exec i { s with draws := n } = .next { t with draws := n } := by
  by_cases hk : ∀ x, i ≠ .skp x ∧ i ≠ .sknp x ∧ i ≠ .ldVxK x
  · have ht : t.key = s.key := (exec_frame h).frame.2 .key key_notMem_partsOf
    have hx := exec_withInputs s.key n hk hr h
    rwa [s.withInputs_of_key rfl, t.withInputs_of_key ht.symm] at hx
  · cases i
    case skp | sknp =>
      obtain rfl := Host.Outcome.next.inj h
      rfl
    case ldVxK x =>
      obtain ⟨hn, hx⟩ | ⟨k, hs, hx⟩ := exec_ldVxK x s
      · obtain rfl := next_unique hx h
        exact execLdVxKWith_none x hn
      · obtain rfl := next_unique hx h
        exact execLdVxKWith_some x hs
    all_goals exact absurd (fun x => ⟨nofun, nofun, nofun⟩) hk

/-! The open parameters (R6). -/

theorem lawful_spec : Params.spec.Lawful := ⟨length_font, fun _ h => lowestKey_pressed h, .inl rfl⟩

/-- SUB_EQ_VF and KEYSEL are read by three instructions. -/
theorem execWith_eq_exec (p : Params) {i : Instr} {s : State}
    (hs : ∀ x y, i = .sub x y ∨ i = .subn x y → s.reg x ≠ s.reg y) (hk : ∀ x, i ≠ .ldVxK x) :
    execWith p i s = exec i s := by
  cases i
  case sub x y => exact execWith_sub_of_ne p (hs x y (.inl rfl))
  case subn x y => exact execWith_subn_of_ne p (hs x y (.inr rfl))
  case ldVxK x => exact absurd rfl (hk x)
  all_goals rfl

/-- What strict decoding fetches, lenient decoding fetches too. -/
theorem fetchInstrWith_of_strict {s : State} {i : Instr} (h : s.fetchInstr = .ok i) (strict : Bool) :
    s.fetchInstrWith strict = .ok i := by
  cases strict with
  | true => exact h
  | false =>
    obtain ⟨op, hf, hd⟩ := State.fetchInstr_ok.1 h
    exact State.fetchInstrWith_ok.2 ⟨op, hf, decodeWith_lenient hd⟩

theorem fetchInstrWith_of_fetch_error {s : State} {e : FatalError} (h : s.fetch = .error e) (strict : Bool) :
    s.fetchInstrWith strict = .error e := by
  rw [State.fetchInstrWith, h]

theorem fetchInstrWith_of_decode_error {s : State} {op : Word} {e : DecodeError} {strict : Bool}
    (hf : s.fetch = .ok op) (hd : decodeWith strict op = .error e) :
    s.fetchInstrWith strict = .error .invalidOpcode := by
  rw [State.fetchInstrWith, hf]
  simp only [hd]

/-- A word that lenient decoding refuses is refused with either value of STRICT_DECODE. -/
theorem decodeWith_of_lenient_error {op : Word} (h : decodeWith false op = .error (.invalidOpcode op)) (strict : Bool) :
    decodeWith strict op = .error (.invalidOpcode op) := by
  cases strict with
  | false => exact h
  | true =>
    obtain ⟨i, hi⟩ | hi := decode_ok_or_invalid op
    · rw [decodeWith_lenient hi] at h
      cases h
    · exact hi

/-- Where the fetch fails the same way, so does the cycle. -/
theorem stepWith_of_error {p : Params} {s : State} (hr : s.Running) {e : FatalError}
    (h : ∀ strict, strict = p.strictDecode ∨ strict = strictDecode → s.fetchInstrWith strict = .error e) :
    stepWith p s = step s :=
  (cycleOf_of_error hr (h _ (.inl rfl))).trans (cycleOf_of_error hr (h _ (.inr rfl))).symm

theorem step_eq_cycle (s : State) : step s = cycle (Config.rand s.draws) s := by
  obtain ⟨x, kk, hn, hc⟩ | ⟨-, hc⟩ := cycle_cases (Config.rand s.draws) s
  · obtain ⟨hr, hf⟩ := State.nextInstr_eq_some.1 hn
    rw [hc, step_of_instr hr hf, exec_rnd]
  · exact hc.symm

/-- The font bytes given to reset, and zeros above them (R33). -/
theorem memRead_resetWith {bytes : List Byte} (h : bytes.length = 80) (a : Addr) :
    (State.resetWith bytes).memRead a = if a.toNat < 80 then bytes.getD a.toNat 0 else 0 := by
  rw [State.resetWith, memRead_writeBytes _ _ _ _ (by omega), h]
  by_cases ha : a.toNat < 80
  · rw [if_pos (by omega), if_pos ha, Nat.sub_zero]
  · rw [if_neg (by omega), if_neg ha, State.memRead_reset_above (by omega)]

end Sys2Proof.Machine

namespace Sys2Proof
open Machine

/-- Settles O11: a stopped machine stays as it is, and a cycle that ends with an error has changed nothing but the
latch, so the report reads `pc` and the word of the cycle that raised it. -/
theorem onlyResetClearsAnError : Obligations.OnlyResetClearsAnError := by
  refine ⟨fun s rand hs => ?_, fun p x z e he hx z' a h => ?_, fun rand z z' a h => ?_⟩
  · exact ⟨step_of_stopped hs, cycleWith_of_stopped .spec rand hs, fun p => cycleWith_of_stopped p rand hs⟩
  · have hs : z.state.Stopped := by simp [State.Stopped, he]
    rw [err_of_transactWith hs hx h, he]
  · obtain ⟨t, ht⟩ := cycle_total rand z.state
    rw [transact_cycle z ht] at h
    cases h
    refine ⟨fun hn => ⟨cycleAnswer_none hn _, by rw [State.errCode, hn]; rfl⟩, fun e he => ?_⟩
    have heq := eq_of_cycle_error ht he
    have hpc : t.pc = z.state.pc := by rw [heq]
    have hfetch : t.fetch = z.state.fetch := State.fetch_congr hpc (by rw [heq])
    refine ⟨_, cycleAnswer_some he _, rfl, hpc, State.errCode_some he, ?_, ?_, ?_, ?_, ?_, ?_⟩
    · rintro rfl; rfl
    · rintro rfl; rfl
    · rintro rfl; rfl
    · rintro rfl; rfl
    · intro hop op hf
      simp only [if_pos hop, hfetch, hf]
      rfl
    · intro hop
      exact if_neg hop

/-- Settles O56: the instructions that read no input commute with a change of it, and the cycles are compared by what
they fetch. -/
theorem inputsAreReadWhereNamedOnly : Obligations.InputsAreReadWhereNamedOnly := by
  refine ⟨fun i s key hk => ?_, fun i s n hr => ?_, step_eq_cycle, fun rand s hn => ?_, fun p rand s hn => ?_,
    lawful_spec, stepWith_spec, resetWith_spec, fun p i s => execWith_eq_exec p, fun p s hr => ⟨fun i hf => ?_,
    fun hf => ?_, fun op hf hd => ?_, fun hstrict e hf => ?_⟩, fun p hp => ⟨?_, memRead_resetWith hp.font_length⟩⟩
  · obtain ⟨t, ht⟩ := exec_total i s
    exact ⟨t, ht, exec_withKeys hk key ht⟩
  · obtain ⟨t, ht⟩ := exec_total i s
    exact ⟨t, ht, exec_withDraws hr n ht⟩
  · obtain ⟨x, kk, hx, -⟩ | ⟨-, hc⟩ := cycle_cases rand s
    · exact absurd hx (hn x kk)
    · exact hc
  · obtain ⟨x, kk, hx, -⟩ | ⟨-, hc⟩ := cycleWith_cases p rand s
    · exact absurd hx (hn x kk)
    · exact hc
  · exact cycleOf_of_instr hr (fetchInstrWith_of_strict hf _)
  · exact stepWith_of_error hr fun strict _ => fetchInstrWith_of_fetch_error hf strict
  · exact stepWith_of_error hr fun strict _ =>
      fetchInstrWith_of_decode_error hf (decodeWith_of_lenient_error hd strict)
  · refine stepWith_of_error hr (e := e) fun strict h => ?_
    obtain rfl | rfl := h
    · rw [hstrict]
      exact hf
    · exact hf
  · exact (frame_writeBytes State.reset 0 p.font).frame

/-- Settles O57: each entry is read off the definition of the reset state, the cells above the font are beyond its
list. -/
theorem resetLeavesTheTable : Obligations.ResetLeavesTheTable := by
  refine ⟨fun r => Vector.getElem_replicate _, rfl, rfl, State.slot_reset, rfl, rfl, rfl,
    fun k => Vector.getElem_replicate _, getPixel_fbClear, rfl, rfl, rfl, rfl, length_font,
    fun a _ => State.memRead_reset a, fun a ha => State.memRead_reset_above ha, transact_reset⟩

/-- Settles O58: the operations by their frames, the transactions by name. -/
theorem ticksKeysAndRedraw : Obligations.TicksKeysAndRedraw := by
  refine ⟨fun s => ⟨⟨toNat_tick _, toNat_tick _, (frame_tickTimers s).frame⟩, fun k j b => ?_,
    ⟨rfl, (frame_redraw s false).frame⟩, fun x y => rfl⟩, fun z => ⟨transact_tickTimers z, fun k b => ?_,
    transact_consumeRedraw z, fun rand => ?_⟩⟩
  · exact ⟨key_setKey k j b s, (frame_key s _).frame⟩
  · rw [transact_setKey z (nibble_lt k), BitVec.ofNat_toNat, BitVec.setWidth_eq]
  · obtain ⟨t, ht⟩ := cycle_total rand z.state
    exact ⟨t, _, ht, transact_cycle z ht⟩

/-- Settles O59: the two sides of 3584 bytes, and the law of consecutive writes from 0x200. -/
theorem loadProgramWritesOrRefusesWhole : Obligations.LoadProgramWritesOrRefusesWhole := by
  intro bytes s
  refine ⟨fun hlen => ?_, fun hlen => loadProgram_tooLarge hlen s⟩
  exact ⟨_, loadProgram_fits hlen s, fun a => memRead_writeBytes bytes s 0x200 a (by omega),
    (frame_writeBytes s _ bytes).frame⟩

/-- Settles O60: loadProgram by the window and the length; bytes written over other keys are the same bytes. -/
theorem launchWindowRules : Obligations.LaunchWindowRules := by
  refine ⟨fun bytes z hlen => ⟨fun hw => ?fits, fun hw => ?later⟩,
    fun bytes z hlen hw => transactWith_load_tooLarge .spec hlen hw, fun rand z => ?cycle,
    fun k b z hk => transact_setKey_refused z hk b⟩
  case fits =>
    refine ⟨_, transactWith_load_empty .spec hlen hw, ?_⟩
    rintro ⟨key, hz⟩
    exact ⟨hlen, key, by rw [hz]; exact writeBytes_withKey bytes State.reset Config.progBase key⟩
  case later =>
    cases h : z.window with
    | empty => exact absurd h hw
    | loaded => exact transactWith_load_loaded .spec hlen h
    | closed => exact transactWith_load_closed .spec h
  case cycle =>
    obtain ⟨t, ht⟩ := cycle_total rand z.state
    exact ⟨t, _, transact_cycle z ht⟩

end Sys2Proof
end
